-- ==== Sys2Proof/Config.lean ====
section
/-! DEFINITION. The block's parameters (00_scope.md R7): a record the machine carries unchanged, so that a claim about every
state is a claim about every value of them (notes/assumptions 3 and 4). `WBITS` is fixed at 8 and is no parameter (R7). -/

namespace Sys2Proof

/-- The widths of the operand fields, which fix the layout of a command word (30_encoding.md R47). -/
structure PortWidths where
  /-- `HIST_W`: the width of the history input. -/
  histW : Nat
  /-- `ADDR_W`: the width of the address input. -/
  addrW : Nat
  /-- `CID_W`: the width of the core-id field. -/
  cidW : Nat
  deriving DecidableEq, Repr

/-- The parameters a block is built with (R7). They never change while it runs (R9). Which values are a configuration
of this block is `Machine.cfgOk` (R8). -/
structure Config extends PortWidths where
  /-- `H`: weights per Entry, and log2 of the Entries per table. -/
  H : Nat
  /-- `NUM_CORES`: the number of per-core tables. OPEN in R7. -/
  numCores : Nat
  /-- `THETA`: the confidence threshold of R70. -/
  theta : Nat
  /-- `ACC_W`: the width of the score accumulator of R63. -/
  accW : Nat
  deriving DecidableEq, Repr

end Sys2Proof
end

