-- ==== Sys2Proof/Machine/Params.lean ====
section
/-! DEFINITION. What the parameters must satisfy, the values that follow from `H`, and the spec's instance (00_scope.md R7, R8;
40_lookup.md R63; 41_training.md R70). -/

namespace Sys2Proof.Machine

/-- `ceil(log2 n)` for `n >= 1`. -/
def ceilLog2 (n : Nat) : Nat := if n ≤ 1 then 0 else Nat.log2 (n - 1) + 1

/-- `ACC_W_MIN(H) = 8 + ceil(log2(H + 1))` (R63). -/
def accWMin (H : Nat) : Nat := 8 + ceilLog2 (H + 1)

/-- The default threshold, `(193 * H + 1400) div 100` (R70). -/
def thetaOf (H : Nat) : Nat := (193 * H + 1400) / 100

/-- The constraints of R8. -/
def cfgOk (c : Config) : Bool :=
  decide (1 ≤ c.H) && decide (c.H ≤ c.histW) && decide (c.H + 2 ≤ c.addrW) &&
    decide (1 ≤ c.numCores) && decide (c.numCores ≤ 2 ^ c.cidW) && decide (accWMin c.H ≤ c.accW)

/-- The instance satperc-H12-W32-A64 (R3, R7), for which spec/opcode_table.json is written. `NUM_CORES` is OPEN in R7: 2 here,
the value the spec's test vectors take (DESIGN CHOICE, notes/assumptions 3). -/
def instanceConfig : Config :=
  { histW := 32, addrW := 64, cidW := 8, H := 12, numCores := 2, theta := thetaOf 12, accW := 32 }

end Sys2Proof.Machine
end

