-- ==== Sys2Proof/Word.lean ====
section
/-! DEFINITION. The words that cross the block's ports. Those whose width is a parameter are unsigned numbers, as 00_scope.md
R10 reads every field; their ranges stand in `Instr.wf` and in the invariant (notes/assumptions 21). -/

namespace Sys2Proof

/-- A command word, format CMD, of `CMD_W` bits (30_encoding.md R47). Bit 0 is the least significant bit (R10). -/
abbrev CmdWord := Nat
/-- A core id as a command carries it, of `CID_W` bits: it may name no core (R47; 60_exceptions.md R87). -/
abbrev CoreId := Nat
/-- A history snapshot, of `HIST_W` bits (R47). -/
abbrev Hist := Nat
/-- A branch address, of `ADDR_W` bits (R47). -/
abbrev Addr := Nat
/-- A response word `rsp` (R53). -/
abbrev RspWord := BitVec 8
/-- The status word `status_o` (10_state.md R22). -/
abbrev StatusWord := BitVec 16

end Sys2Proof
end

