-- ==== Sys2Proof/Syntax.lean ====
section
/-! DEFINITION. The commands, one constructor per row of spec/opcode_table.json (30_encoding.md R48, R49). A constructor
keeps the fields its command uses (R50), and `CORE` wherever a fault of the command records it (60_exceptions.md R87).
The fields a command ignores are dropped (notes/assumptions 11). -/

namespace Sys2Proof

inductive Instr where
  /-- INIT (R79). `core` is no operand: it is what a fault of this INIT records (R92; notes/assumptions 9). -/
  | init (core : CoreId)
  /-- PREDICT (R66). -/
  | predict (core : CoreId) (hist : Hist) (addr : Addr)
  /-- UPDATE (R75). `outcome` is `OUTCOME`, true for taken; `cond` is `COND`, true for a conditional branch (R51). -/
  | update (core : CoreId) (outcome cond : Bool) (hist : Hist) (addr : Addr)
  /-- FULL (R80). -/
  | full (core : CoreId)
  /-- TIMESTAMP (R81). -/
  | timestamp (core : CoreId)
  /-- RECOVER (R82). -/
  | recover (core : CoreId)
  /-- SPEC_UPDATE (R83). -/
  | specUpdate (core : CoreId)
  /-- RETIRE (R84). -/
  | retire (core : CoreId)
  /-- A word with `OP` in 0x8 to 0xF and `RSV = 0`: it faults ILLEGAL_CMD (R49). -/
  | reservedOp (op : BitVec 4) (core : CoreId)
  /-- A word with `RSV` not 0, whatever its `OP`: it faults ILLEGAL_CMD (R49). A word that is illegal for both reasons
  is this one; the effect is the same (notes/assumptions 10). -/
  | reservedRsv (rsv : BitVec 2) (op : BitVec 4) (core : CoreId)
  deriving DecidableEq, Repr

/-- The part of a command word that `precheck` (R91) reads and a fault (R92) records. -/
structure Header where
  op : BitVec 4
  rsv : BitVec 2
  core : CoreId
  deriving DecidableEq, Repr

end Sys2Proof
end

