-- ==== Sys2Proof/WellFormed.lean ====
section
/-! DEFINITION. Which terms of `Instr` some command word stands for. -/

namespace Sys2Proof

/-- A reserved-`OP` term has an `OP` in 0x8 to 0xF, and a reserved-`RSV` term an `RSV` that is not 0 (30_encoding.md R49). -/
def Instr.inRow : Instr → Bool
  | .init _ => true
  | .predict _ _ _ => true
  | .update _ _ _ _ _ => true
  | .full _ => true
  | .timestamp _ => true
  | .recover _ => true
  | .specUpdate _ => true
  | .retire _ => true
  | .reservedOp op _ => decide (8 ≤ op.toNat)
  | .reservedRsv rsv _ _ => decide (rsv ≠ 0)

/-- Every operand fits the field that carries it (R47). -/
def Instr.fits (p : PortWidths) : Instr → Bool
  | .init core => decide (core < 2 ^ p.cidW)
  | .predict core hist addr =>
    decide (core < 2 ^ p.cidW) && decide (hist < 2 ^ p.histW) && decide (addr < 2 ^ p.addrW)
  | .update core _ _ hist addr =>
    decide (core < 2 ^ p.cidW) && decide (hist < 2 ^ p.histW) && decide (addr < 2 ^ p.addrW)
  | .full core => decide (core < 2 ^ p.cidW)
  | .timestamp core => decide (core < 2 ^ p.cidW)
  | .recover core => decide (core < 2 ^ p.cidW)
  | .specUpdate core => decide (core < 2 ^ p.cidW)
  | .retire core => decide (core < 2 ^ p.cidW)
  | .reservedOp _ core => decide (core < 2 ^ p.cidW)
  | .reservedRsv _ _ core => decide (core < 2 ^ p.cidW)

/-- A term some word of these widths stands for. A `CORE` at or above `NUM_CORES` that fits its field is a well-formed command
that faults (R55; 60_exceptions.md R89). -/
def Instr.wf (p : PortWidths) (i : Instr) : Bool := i.inRow && i.fits p

end Sys2Proof
end

