-- ==== Sys2Proof/Decode.lean ====
section
/-! DEFINITION. The decoder (total: 30_encoding.md R52) and the encoder, both written from the field table of R47 and the
code table of R48, for every choice of the port widths. -/

namespace Sys2Proof

/-- The width of the control word, 16 bits. "If `CID_W` were wider than 8, the control word would grow and every later field
would move up by the same amount" (R47). Below 8 the fields stay in place (DESIGN CHOICE, notes/assumptions 20). -/
def PortWidths.ctlW (p : PortWidths) : Nat := 8 + max 8 p.cidW

/-- `CMD_W = 16 + HIST_W + ADDR_W`, the width of a command word (R45, R47). -/
def PortWidths.cmdW (p : PortWidths) : Nat := p.ctlW + p.histW + p.addrW

/-- The field of `n` bits from bit `lo` up, read as an unsigned number (00_scope.md R10). -/
def fieldAt (w : CmdWord) (lo n : Nat) : Nat := (w >>> lo) % 2 ^ n

/-- `OP`, bits [3:0] (R47). -/
def fieldOp (w : CmdWord) : BitVec 4 := BitVec.ofNat 4 (fieldAt w 0 4)
/-- `CORE`, `CID_W` bits from bit 4 (R47). -/
def fieldCore (p : PortWidths) (w : CmdWord) : CoreId := fieldAt w 4 p.cidW
/-- `OUTCOME`, bit [12] of a 16-bit control word (R47). -/
def fieldOutcome (p : PortWidths) (w : CmdWord) : Bool := w.testBit (p.ctlW - 4)
/-- `COND`, bit [13] of a 16-bit control word (R47). -/
def fieldCond (p : PortWidths) (w : CmdWord) : Bool := w.testBit (p.ctlW - 3)
/-- `RSV`, bits [15:14] of a 16-bit control word (R47). -/
def fieldRsv (p : PortWidths) (w : CmdWord) : BitVec 2 := BitVec.ofNat 2 (fieldAt w (p.ctlW - 2) 2)
/-- `HIST`, the `HIST_W` bits above the control word (R47). -/
def fieldHist (p : PortWidths) (w : CmdWord) : Hist := fieldAt w p.ctlW p.histW
/-- `ADDR`, the `ADDR_W` bits above `HIST` (R47). -/
def fieldAddr (p : PortWidths) (w : CmdWord) : Addr := fieldAt w (p.ctlW + p.histW) p.addrW

/-- What a word with `RSV = 0` is, by its `OP` (R48). -/
def decodeOp (p : PortWidths) (w : CmdWord) : Instr :=
  match (fieldOp w).toNat with
  | 0 => .init (fieldCore p w)
  | 1 => .predict (fieldCore p w) (fieldHist p w) (fieldAddr p w)
  | 2 => .update (fieldCore p w) (fieldOutcome p w) (fieldCond p w) (fieldHist p w) (fieldAddr p w)
  | 3 => .full (fieldCore p w)
  | 4 => .timestamp (fieldCore p w)
  | 5 => .recover (fieldCore p w)
  | 6 => .specUpdate (fieldCore p w)
  | 7 => .retire (fieldCore p w)
  | _ => .reservedOp (fieldOp w) (fieldCore p w)

/-- The decoder of R52. An illegal word is refused by the name of its reserved row: `reservedRsv` or `reservedOp`. -/
def decode (p : PortWidths) (w : CmdWord) : Instr :=
  if fieldRsv p w = 0 then decodeOp p w else .reservedRsv (fieldRsv p w) (fieldOp w) (fieldCore p w)

/-- The word with these fields (R47). -/
def packFields (p : PortWidths) (op : BitVec 4) (core : CoreId) (outcome cond : Bool) (rsv : BitVec 2) (hist : Hist)
    (addr : Addr) : CmdWord :=
  op.toNat + core * 2 ^ 4 + outcome.toNat * 2 ^ (p.ctlW - 4) + cond.toNat * 2 ^ (p.ctlW - 3) +
    rsv.toNat * 2 ^ (p.ctlW - 2) + hist * 2 ^ p.ctlW + addr * 2 ^ (p.ctlW + p.histW)

/-- The word of an instruction, 0 in every field it does not use (R55: "The assembler writes 0 into every field the syntax
does not name and into `RSV`"). -/
def encode (p : PortWidths) : Instr → CmdWord
  | .init core => packFields p 0x0 core false false 0 0 0
  | .predict core hist addr => packFields p 0x1 core false false 0 hist addr
  | .update core outcome cond hist addr => packFields p 0x2 core outcome cond 0 hist addr
  | .full core => packFields p 0x3 core false false 0 0 0
  | .timestamp core => packFields p 0x4 core false false 0 0 0
  | .recover core => packFields p 0x5 core false false 0 0 0
  | .specUpdate core => packFields p 0x6 core false false 0 0 0
  | .retire core => packFields p 0x7 core false false 0 0 0
  | .reservedOp op core => packFields p op core false false 0 0 0
  | .reservedRsv rsv op core => packFields p op core false false rsv 0 0

/-- The `nbits` low bits of `w` as a command word, every bit above them 0. -/
def tableWord (nbits w : Nat) : CmdWord := w % 2 ^ nbits

/-- The instruction the decoder reads from a word of the opcode table, at the instance's widths, for which the table is written.
A word longer than `CMD_W` bits is no command (R52: "a single fixed-length format") and is refused. -/
def decodeTableWord (nbits w : Nat) : Option Instr :=
  if nbits ≤ Machine.instanceConfig.cmdW then some (decode Machine.instanceConfig.toPortWidths (tableWord nbits w)) else none

end Sys2Proof
end

