-- ==== Sys2Proof/Machine/State.lean ====
section
/-! DEFINITION. The block's state (10_state.md R28), the host's side of its ports, and the reasons a step can stop. -/

namespace Sys2Proof.Machine

/-- One Entry: a bias and the weights `w[0..H-1]` (R14). Its fields are integers that stay in [-128, 127] (R15), which
`Entry.fits` says and every step keeps; nothing here wraps (notes/assumptions 18). -/
structure Entry where
  bias : Int
  w : List Int
  deriving DecidableEq, Repr

/-- The entry SRAM: (row, Entry) pairs, rows strictly rising, no pair that holds what an unlisted row reads as
(`Memory.wf`). A row is one Entry, the unit of the block's one address space (20_memory.md R29, R30; notes/assumptions 6). -/
abbrev Memory := List (Nat × Entry)

/-- What the host does next at the block's input ports (30_encoding.md R45; notes/assumptions 1). -/
inductive HostEvent where
  /-- It offers this word: `req_valid = 1`, `req_cmd = w` (R46). -/
  | cmd (w : CmdWord)
  /-- It pulses `rst` (70_reset_and_hazards.md R103). -/
  | rst
  /-- It offers this word and pulses `rst` before the command is answered (R103, third point; notes/assumptions 12). -/
  | cmdThenRst (w : CmdWord)
  deriving DecidableEq, Repr

/-- The four faults (60_exceptions.md R87). -/
inductive FaultCode where
  | illegalCmd
  | notInit
  | reinit
  | coreRange
  deriving DecidableEq, Repr

structure State where
  /-- The tables: none until INIT (R27, R28). -/
  tbl : Option Memory
  /-- `INIT_DONE` (R21). -/
  initDone : Bool
  /-- `HALTED` (R21). -/
  halted : Bool
  /-- `FAULT_CAUSE` (R21). -/
  faultCause : BitVec 3
  /-- `FAULT_OP` (R21). -/
  faultOp : BitVec 4
  /-- `FAULT_CORE` (R21), of `CID_W` bits. -/
  faultCore : CoreId
  /-- MODEL: the parameters the block is built with (R7); no step changes them (notes/assumptions 3 and 4). -/
  cfg : Config
  /-- MODEL: what the host does next, the first event next (notes/assumptions 1). -/
  host : List HostEvent
  /-- MODEL: the response the last step delivered on `rsp`/`rsp_valid`, if it delivered one (notes/assumptions 16). -/
  rsp : Option RspWord
  deriving DecidableEq, Repr

/-- Why a step stops with a fault. The block's own four faults (`FaultCode`) are no stops: raising one is a next state. -/
inductive Fault where
  /-- Raised by `step` on a halted block for which the host has nothing more to do: the fault state of R93, which has no
  further step. Safe: the model stops where the block waits for a reset that does not come. -/
  | halted (cause : BitVec 3)
  /-- Raised by PREDICT and by UPDATE with `COND = 1` when `INIT_DONE = 1` and there are no tables. No run reaches such a
  state (R28: `tbl = none` if and only if `initDone = false`). Safe: the model stops. -/
  | tablesAbsent
  deriving DecidableEq, Repr

/-- Why a step has no meaning. -/
inductive Refusal where
  /-- Raised by an arm of `exec` whose instruction has no meaning yet. Safe. No arm does. -/
  | notModelled (mnemonic : String)
  /-- Raised by `step` on a configuration that breaks R8: "it is not a configuration of this block". Safe. -/
  | badConfiguration
  deriving DecidableEq, Repr

/-- The block right after reset (R27, R103): tables unspecified, held as absent; every status register 0. -/
def State.reset : State :=
  { tbl := none, initDone := false, halted := false, faultCause := 0, faultOp := 0, faultCore := 0,
    cfg := instanceConfig, host := [], rsp := none }

end Sys2Proof.Machine
end

