-- ==== Sys2Proof/Machine/Operands.lean ====
section
/-! DEFINITION. What a command's fields select: the table indexer, the history inputs, the row of the SRAM, and the header
that `precheck` reads (40_lookup.md R57, R60; 20_memory.md R30; 60_exceptions.md R91). -/

namespace Sys2Proof.Machine

/-- The table indexer: `(addr >> 2) & (2^H - 1)` (R57). -/
def index (H : Nat) (addr : Addr) : Nat := (addr >>> 2) &&& (2 ^ H - 1)

/-- `x_i(hist)`: +1 if `HIST[HIST_W-1-i]` is 1, else -1 (R60). -/
def histSign (histW : Nat) (hist : Hist) (i : Nat) : Int := if hist.testBit (histW - 1 - i) then 1 else -1

/-- The row of `T[c][j]` in the entry SRAM, `c * 2^H + j` (R30). -/
def rowOf (H c j : Nat) : Nat := c * 2 ^ H + j

/-- The row a command with this `CORE` and `ADDR` selects. -/
def commandRow (cfg : Config) (core : CoreId) (addr : Addr) : Nat := rowOf cfg.H core (index cfg.H addr)

/-- The header of a command: its code (R48), its `RSV` and its `CORE`. -/
def headerOf : Instr → Header
  | .init core => ⟨0x0, 0, core⟩
  | .predict core _ _ => ⟨0x1, 0, core⟩
  | .update core _ _ _ _ => ⟨0x2, 0, core⟩
  | .full core => ⟨0x3, 0, core⟩
  | .timestamp core => ⟨0x4, 0, core⟩
  | .recover core => ⟨0x5, 0, core⟩
  | .specUpdate core => ⟨0x6, 0, core⟩
  | .retire core => ⟨0x7, 0, core⟩
  | .reservedOp op core => ⟨op, 0, core⟩
  | .reservedRsv rsv op core => ⟨op, rsv, core⟩

/-- The commands that carry a core: PREDICT, UPDATE, FULL and the four hooks (60_exceptions.md R89: "every
command except INIT"). -/
def carriesCore : Instr → Bool
  | .predict _ _ _ => true
  | .update _ _ _ _ _ => true
  | .full _ => true
  | .timestamp _ => true
  | .recover _ => true
  | .specUpdate _ => true
  | .retire _ => true
  | .init _ => false
  | .reservedOp _ _ => false
  | .reservedRsv _ _ _ => false

end Sys2Proof.Machine
end

