-- ==== Sys2Proof/Machine/Datapath.lean ====
section
/-! DEFINITION. The datapath: the dot-product accumulator, the direction, the threshold comparator and the saturating
trainer (40_lookup.md R61 to R64; 41_training.md R68 to R73). Every value is an exact integer (00_scope.md R10). -/

namespace Sys2Proof.Machine

/-- The zero Entry INIT writes (42_lifecycle.md R79). -/
def zeroEntry (H : Nat) : Entry := { bias := 0, w := List.replicate H 0 }

/-- The products `w[i] * x_i`, for `i` from 0 (R61). -/
def products (histW : Nat) (e : Entry) (hist : Hist) : List Int := e.w.zipIdx.map fun p => p.1 * histSign histW hist p.2

/-- `score(e, hist) = e.bias + sum w[i] * x_i(hist)` (R61). -/
def score (histW : Nat) (e : Entry) (hist : Hist) : Int := e.bias + (products histW e hist).sum

/-- The hardware accumulator of `n` signed bits, which wraps: the bias, then each product in turn (R63). Where `n` is at
least `ACC_W_MIN(H)` it holds `score`, which is what the commands use ("a model computes `score` as a mathematical integer"). -/
def accumulate (n histW : Nat) (e : Entry) (hist : Hist) : BitVec n :=
  (products histW e hist).foldl (fun acc p => acc + BitVec.ofInt n p) (BitVec.ofInt n e.bias)

/-- The predicted direction, true for taken: taken exactly when the score is at least 0 (R64). -/
def direction (s : Int) : Bool := decide (0 ≤ s)

/-- The saturating adder's clamp to [-128, 127] (R68). -/
def saturate (v : Int) : Int := if v < -128 then -128 else if 127 < v then 127 else v

/-- The training gate: a misprediction, or `abs(s) < THETA` (R71). -/
def gate (theta : Nat) (s : Int) (outcome : Bool) : Bool := (direction s != outcome) || decide (s.natAbs < theta)

/-- The training target `y` (R72). -/
def target (outcome : Bool) : Int := if outcome then 1 else -1

/-- The trainer: the Entry unchanged when the gate is closed, else every field one saturating step towards the outcome (R73).
The gate reads the score of the Entry as it is now (R74). -/
def train (histW theta : Nat) (e : Entry) (hist : Hist) (outcome : Bool) : Entry :=
  if gate theta (score histW e hist) outcome then
    { bias := saturate (e.bias + target outcome)
      w := e.w.zipIdx.map fun p => saturate (p.1 + histSign histW hist p.2 * target outcome) }
  else e

end Sys2Proof.Machine
end

