-- ==== Sys2Proof/Machine/Flags.lean ====
section
/-! DEFINITION. The block has no condition codes (10_state.md R20). What it shows of its status and of a command's result:
the fault codes (60_exceptions.md R87), the response word (30_encoding.md R53, R54) and the output ports (R22, R46). -/

namespace Sys2Proof.Machine

/-- The code of a fault (R87). -/
def FaultCode.code : FaultCode → BitVec 3
  | .illegalCmd => 1
  | .notInit => 2
  | .reinit => 3
  | .coreRange => 4

/-- `rsp` as `respond(taken, full, fault)` delivers it: three zeros, `fault`, `full`, `taken` (R53, R54). -/
def rspWord (taken full : Bool) (fault : BitVec 3) : RspWord :=
  0#3 ++ fault ++ BitVec.ofBool full ++ BitVec.ofBool taken

/-- `status_o`: `INIT_DONE` [0], `HALTED` [1], `FAULT_CAUSE` [4:2], zeros [7:5], `FAULT_OP` [11:8], zeros [15:12] (R22). -/
def statusO (s : State) : StatusWord :=
  0#4 ++ s.faultOp ++ 0#3 ++ s.faultCause ++ BitVec.ofBool s.halted ++ BitVec.ofBool s.initDone

/-- `fault_core_o`, a port of `CID_W` bits (R22). -/
def faultCoreO (s : State) : BitVec s.cfg.cidW := BitVec.ofNat _ s.faultCore

/-- `req_ready` between two steps: the block can accept a command unless it is halted (R46, R93). -/
def reqReady (s : State) : Bool := !s.halted

/-- `rsp_valid` (R45): the last step delivered a response. -/
def rspValid (s : State) : Bool := s.rsp.isSome

end Sys2Proof.Machine
end

