-- ==== Sys2Proof/Machine/Ops.lean ====
section
/-! DEFINITION. The operations the commands share: the entry SRAM, `precheck`, raising a fault, responding, and reset. -/

namespace Sys2Proof.Machine

/-- What row `r` holds; `z` is what an unlisted row reads as. -/
def Memory.read (z : Entry) : Memory → Nat → Entry
  | [], _ => z
  | (k, e) :: m, r => if k = r then e else Memory.read z m r

/-- Row `r` takes `e`. A row that takes `z` is listed no longer, so that equal memories are equal lists. -/
def Memory.write (z : Entry) : Memory → Nat → Entry → Memory
  | [], r, e => if e = z then [] else [(r, e)]
  | (k, v) :: m, r, e =>
    if r < k then (if e = z then (k, v) :: m else (r, e) :: (k, v) :: m)
    else if r = k then (if e = z then m else (r, e) :: m)
    else (k, v) :: Memory.write z m r e

/-- Every listed row is above `b`, and the rows rise strictly. -/
def Memory.risingFrom : Option Nat → Memory → Bool
  | _, [] => true
  | none, (k, _) :: m => Memory.risingFrom (some k) m
  | some b, (k, _) :: m => decide (b < k) && Memory.risingFrom (some k) m

/-- The canonical form: rows strictly rising, and no pair that holds what an unlisted row reads as. -/
def Memory.wf (z : Entry) (m : Memory) : Bool := Memory.risingFrom none m && m.all fun p => decide (p.2 ≠ z)

/-- The Entry an unlisted row reads as once there are tables: the zero Entry INIT wrote to every row (42_lifecycle.md R79). -/
def blankEntry (s : State) : Entry := zeroEntry s.cfg.H

/-- `SramRead`: one whole Entry (20_memory.md R34). None before INIT, when there are no tables (10_state.md R28). -/
def sramRead (s : State) (r : Nat) : Option Entry := s.tbl.map fun m => Memory.read (blankEntry s) m r

/-- `SramWrite`: one whole Entry (R34). -/
def sramWrite (s : State) (r : Nat) (e : Entry) : State :=
  { s with tbl := s.tbl.map fun m => Memory.write (blankEntry s) m r e }

/-- `respond(taken, full, 0)`, the response of a command that completes (30_encoding.md R54). -/
def respond (taken full : Bool) (s : State) : State := { s with rsp := some (rspWord taken full 0) }

/-- `raise Fault(code)`: the cause, the command's `OP` and `CORE` are recorded, the block halts, and the response carries the
code; nothing else changes (60_exceptions.md R92). There is no return from a fault but reset (R93, R94). -/
def raiseFault (c : FaultCode) (h : Header) (s : State) : State :=
  { s with
    faultCause := c.code
    faultOp := h.op
    faultCore := h.core
    halted := true
    rsp := some (rspWord false false c.code) }

/-- `precheck`: the one fault a command reports, if any, in the order of R91. -/
def precheck (h : Header) (s : State) : Option FaultCode :=
  if h.rsv ≠ 0 ∨ 8 ≤ h.op.toNat then some .illegalCmd
  else if h.op = 0 then (if s.initDone then some .reinit else none)
  else if s.initDone = false then some .notInit
  else if s.cfg.numCores ≤ h.core then some .coreRange
  else none

/-- A command: `precheck` first, then its own effect (R91). -/
def runCommand (h : Header) (s : State) (body : State → Host.Outcome State Fault Refusal) :
    Host.Outcome State Fault Refusal :=
  match precheck h s with
  | some c => .next (raiseFault c h s)
  | none => body s

/-- What FULL and the four lifecycle hooks do after `precheck`: they answer 0 and change nothing (42_lifecycle.md R80 to R84). -/
def answerZero (s : State) : Host.Outcome State Fault Refusal := .next (respond false false s)

/-- INIT's own effect: every Entry of every table becomes the zero Entry, and `INIT_DONE` becomes 1 (R79). -/
def zeroTables (s : State) : State := { s with tbl := some [], initDone := true }

/-- Hardware reset: the tables are unspecified again, every status register is 0, no response (70_reset_and_hazards.md R103).
The parameters and what the host does after are no part of the block's reset. -/
def hardReset (s : State) : State := { State.reset with cfg := s.cfg, host := s.host }

end Sys2Proof.Machine
end

