-- ==== Sys2Proof/Machine/Lifecycle.lean ====
section
/-! DEFINITION. INIT, the capacity query and the four lifecycle hooks (42_lifecycle.md). -/

namespace Sys2Proof.Machine

/-- INIT (R79): one atomic step that zeroes every table and sets `INIT_DONE`; a second INIT faults REINIT. -/
def execInit (core : CoreId) (s : State) : Host.Outcome State Fault Refusal :=
  runCommand ⟨0x0, 0, core⟩ s fun s => .next (respond false false (zeroTables s))

/-- FULL (R80): the answer is always 0, "not full". -/
def execFull (core : CoreId) (s : State) : Host.Outcome State Fault Refusal := runCommand ⟨0x3, 0, core⟩ s answerZero

/-- TIMESTAMP (R81): a no-op that reads no clock (60_exceptions.md R99). -/
def execTimestamp (core : CoreId) (s : State) : Host.Outcome State Fault Refusal := runCommand ⟨0x4, 0, core⟩ s answerZero

/-- RECOVER (R82): a no-op; no Entry goes back to an earlier value. -/
def execRecover (core : CoreId) (s : State) : Host.Outcome State Fault Refusal := runCommand ⟨0x5, 0, core⟩ s answerZero

/-- SPEC_UPDATE (R83): a no-op; only UPDATE trains. -/
def execSpecUpdate (core : CoreId) (s : State) : Host.Outcome State Fault Refusal := runCommand ⟨0x6, 0, core⟩ s answerZero

/-- RETIRE (R84): a no-op. -/
def execRetire (core : CoreId) (s : State) : Host.Outcome State Fault Refusal := runCommand ⟨0x7, 0, core⟩ s answerZero

end Sys2Proof.Machine
end

