-- ==== Sys2Proof/Machine/Lookup.lean ====
section
/-! DEFINITION. PREDICT (40_lookup.md). -/

namespace Sys2Proof.Machine

/-- PREDICT (R66): the direction of the selected Entry's score. It writes no Entry and no status register. -/
def execPredict (core : CoreId) (hist : Hist) (addr : Addr) (s : State) : Host.Outcome State Fault Refusal :=
  runCommand ⟨0x1, 0, core⟩ s fun s =>
    match sramRead s (commandRow s.cfg core addr) with
    | some e => .next (respond (direction (score s.cfg.histW e hist)) false s)
    | none => .fault .tablesAbsent

end Sys2Proof.Machine
end

