-- ==== Sys2Proof/Machine/Reserved.lean ====
section
/-! DEFINITION. The reserved encodings (30_encoding.md R49): each raises ILLEGAL_CMD and has no other effect. -/

namespace Sys2Proof.Machine

/-- A word with `OP` in 0x8 to 0xF (R49, R91). -/
def execReservedOp (op : BitVec 4) (core : CoreId) (s : State) : Host.Outcome State Fault Refusal :=
  .next (raiseFault .illegalCmd ⟨op, 0, core⟩ s)

/-- A word with `RSV` not 0 (R49, R91). -/
def execReservedRsv (rsv : BitVec 2) (op : BitVec 4) (core : CoreId) (s : State) : Host.Outcome State Fault Refusal :=
  .next (raiseFault .illegalCmd ⟨op, rsv, core⟩ s)

end Sys2Proof.Machine
end

