-- ==== Sys2Proof/Machine/Training.lean ====
section
/-! DEFINITION. UPDATE (41_training.md). -/

namespace Sys2Proof.Machine

/-- UPDATE (R75): with `COND = 1`, one atomic read-modify-write of the selected Entry by the trainer; with `COND = 0`, nothing.
The fault checks apply to both. -/
def execUpdate (core : CoreId) (outcome cond : Bool) (hist : Hist) (addr : Addr) (s : State) :
    Host.Outcome State Fault Refusal :=
  runCommand ⟨0x2, 0, core⟩ s fun s =>
    if cond then
      match sramRead s (commandRow s.cfg core addr) with
      | some e =>
        .next (respond false false (sramWrite s (commandRow s.cfg core addr) (train s.cfg.histW s.cfg.theta e hist outcome)))
      | none => .fault .tablesAbsent
    else answerZero s

end Sys2Proof.Machine
end

