-- ==== Sys2Proof/Machine/Dispatch.lean ====
section
/-! DEFINITION. One arm per constructor of Instr, each one call of that instruction's own meaning. -/

namespace Sys2Proof.Machine

def exec (i : Instr) (s : State) : Host.Outcome State Fault Refusal :=
  match i with
  | .init core => Sys2Proof.Machine.execInit core s
  | .predict core hist addr => Sys2Proof.Machine.execPredict core hist addr s
  | .update core outcome cond hist addr => Sys2Proof.Machine.execUpdate core outcome cond hist addr s
  | .full core => Sys2Proof.Machine.execFull core s
  | .timestamp core => Sys2Proof.Machine.execTimestamp core s
  | .recover core => Sys2Proof.Machine.execRecover core s
  | .specUpdate core => Sys2Proof.Machine.execSpecUpdate core s
  | .retire core => Sys2Proof.Machine.execRetire core s
  | .reservedOp op core => Sys2Proof.Machine.execReservedOp op core s
  | .reservedRsv rsv op core => Sys2Proof.Machine.execReservedRsv rsv op core s

end Sys2Proof.Machine
end

