-- ==== Sys2Proof/Machine/Ports.lean ====
section
/-! DEFINITION. One step at the block's ports: what the host's next event does (30_encoding.md R46; 60_exceptions.md R93, R102;
70_reset_and_hazards.md R103). -/

namespace Sys2Proof.Machine

/-- The host's first event is done, and the response of the step before is off the port. -/
def takeEvent (rest : List HostEvent) (s : State) : State := { s with host := rest, rsp := none }

/-- A step of a block whose accepted command words mean `run`. A configuration that breaks R8 is refused. An idle block waits
(R102). A halted block accepts no command (R93): an offer is turned away, and when the host has nothing more to do the halted
state is the fault state it is. `rst` acts in every state (R103), and abandons a command that has not been answered. -/
def stepWith (run : CmdWord → State → Host.Outcome State Fault Refusal) (s : State) : Host.Outcome State Fault Refusal :=
  if cfgOk s.cfg = false then .refused .badConfiguration
  else
    match s.host with
    | [] => if s.halted then .fault (.halted s.faultCause) else .next (takeEvent [] s)
    | .cmd w :: rest => if s.halted then .next (takeEvent rest s) else run w (takeEvent rest s)
    | .rst :: rest => .next (hardReset (takeEvent rest s))
    | .cmdThenRst _ :: rest => .next (hardReset (takeEvent rest s))

/-- The host offers `w` next. -/
def offerNext (w : CmdWord) (s : State) : State := { s with host := .cmd w :: s.host }

end Sys2Proof.Machine
end

