-- ==== Sys2Proof/Machine/Step.lean ====
section
/-! DEFINITION. One step of the block: the host's next event, an accepted word being decoded and run as one atomic step
(20_memory.md R39). -/

namespace Sys2Proof.Machine

def step (s : State) : Host.Outcome State Fault Refusal := stepWith (fun w t => exec (decode t.cfg.toPortWidths w) t) s

/-- `s` with this word of the opcode table offered next on the request port, where `step` takes its next command from
(notes/assumptions 2). -/
def State.withFetchWord (s : State) (nbits w : Nat) : State := offerNext (tableWord nbits w) s

end Sys2Proof.Machine
end

