-- ==== Sys2Proof/Machine/Assembler.lean ====
section
/-! DEFINITION. The textual command syntax, the two pseudo-commands and the written form of a word (30_encoding.md R55, R56).
It is the host's way to write words; no step of the block uses it (notes/assumptions 19). -/

namespace Sys2Proof.Machine

/-- A line of the syntax of R55 or a pseudo-command of R56, its operands still numbers that may not fit their fields. -/
inductive AsmCommand where
  | init
  | predict (core addr hist : Nat)
  | update (core addr hist : Nat) (taken conditional : Bool)
  | full (core : Nat)
  | timestamp (core : Nat)
  | recover (core : Nat)
  | specUpdate (core : Nat)
  | retire (core : Nat)
  | train (core addr hist : Nat) (taken : Bool)
  | notBranch (core : Nat)
  deriving DecidableEq, Repr

/-- A pseudo-command is exactly one command (R56). -/
def AsmCommand.expand : AsmCommand → AsmCommand
  | .train core addr hist taken => .update core addr hist taken true
  | .notBranch core => .update core 0 0 false false
  | c => c

/-- A number as a field of `n` bits; refused if it does not fit (R55). -/
def fitField (n v : Nat) : Option Nat := if v < 2 ^ n then some v else none

/-- The core operand of a command that has only one. -/
def oneCore (p : PortWidths) (make : CoreId → Instr) (core : Nat) : Option Instr := (fitField p.cidW core).map make

/-- The core, address and history operands of PREDICT and UPDATE. -/
def threeFields (p : PortWidths) (make : CoreId → Addr → Hist → Instr) (core addr hist : Nat) : Option Instr :=
  match fitField p.cidW core, fitField p.addrW addr, fitField p.histW hist with
  | some c, some a, some h => some (make c a h)
  | _, _, _ => none

/-- The instruction of a command; none where a value does not fit its field (R55). A core at or above `NUM_CORES` that fits
is accepted: "the hardware faults it". -/
def AsmCommand.instr (p : PortWidths) (c : AsmCommand) : Option Instr :=
  match c.expand with
  | .init => some (.init 0)
  | .predict core addr hist => threeFields p (fun c a h => .predict c h a) core addr hist
  | .update core addr hist taken conditional => threeFields p (fun c a h => .update c taken conditional h a) core addr hist
  | .full core => oneCore p .full core
  | .timestamp core => oneCore p .timestamp core
  | .recover core => oneCore p .recover core
  | .specUpdate core => oneCore p .specUpdate core
  | .retire core => oneCore p .retire core
  | .train _ _ _ _ => none
  | .notBranch _ => none

/-- The word of a command. -/
def AsmCommand.assemble (p : PortWidths) (c : AsmCommand) : Option CmdWord := (c.instr p).map (encode p)

/-- The value of a digit in bases up to 16. -/
def digitValue (ch : Char) : Option Nat :=
  let n := ch.toNat
  if 48 ≤ n ∧ n ≤ 57 then some (n - 48)
  else if 97 ≤ n ∧ n ≤ 102 then some (n - 87)
  else if 65 ≤ n ∧ n ≤ 70 then some (n - 55)
  else none

/-- The number these digits spell in this base, after `acc`. -/
def readDigits (base acc : Nat) : List Char → Option Nat
  | [] => some acc
  | ch :: rest =>
    match digitValue ch with
    | some d => if d < base then readDigits base (acc * base + d) rest else none
    | none => none

/-- A decimal number of at least one digit. -/
def readDecimal : List Char → Option Nat
  | [] => none
  | cs => readDigits 10 0 cs

/-- A number, decimal or `0x` hexadecimal (R55). -/
def readNumber : List Char → Option Nat
  | '0' :: 'x' :: d :: ds => readDigits 16 0 (d :: ds)
  | cs => readDecimal cs

/-- A core operand, `c` and a decimal core id (R55). -/
def readCore : List Char → Option Nat
  | 'c' :: ds => readDecimal ds
  | _ => none

/-- An outcome operand: `T` is 1, `N` is 0 (R55). -/
def readOutcome : List Char → Option Bool
  | ['T'] => some true
  | ['N'] => some false
  | _ => none

/-- A classification operand: `C` is 1, `U` is 0 (R55). -/
def readClass : List Char → Option Bool
  | ['C'] => some true
  | ['U'] => some false
  | _ => none

/-- A space or a tab. -/
def isBlankChar (ch : Char) : Bool := ch == ' ' || ch == '\t'

/-- A text without the blanks around it. -/
def trimBlanks (cs : List Char) : List Char :=
  ((cs.dropWhile isBlankChar).reverse.dropWhile isBlankChar).reverse

/-- The pieces of a text between commas. -/
def splitCommas : List Char → List (List Char)
  | [] => [[]]
  | ch :: rest =>
    match splitCommas rest with
    | piece :: pieces => if ch = ',' then [] :: piece :: pieces else (ch :: piece) :: pieces
    | [] => [[ch]]

/-- A line without its comment, which `;` starts, and without the blanks around it. -/
def stripComment (cs : List Char) : List Char := trimBlanks (cs.takeWhile fun ch => ch != ';')

/-- The mnemonic of a line. -/
def mnemonicOf (line : List Char) : List Char := line.takeWhile fun ch => !isBlankChar ch

/-- The operands of a line, commas between them. -/
def operandsOf (line : List Char) : List (List Char) :=
  match trimBlanks (line.dropWhile fun ch => !isBlankChar ch) with
  | [] => []
  | text => (splitCommas text).map trimBlanks

/-- A command whose only operand is a core. -/
def readOneCore (make : Nat → AsmCommand) : List (List Char) → Option AsmCommand
  | [c] => (readCore c).map make
  | _ => none

/-- The command with this mnemonic and these operands (R55, R56). -/
def readCommand (mnemonic : String) (operands : List (List Char)) : Option AsmCommand :=
  if mnemonic = "INIT" then (if operands = [] then some .init else none)
  else if mnemonic = "PREDICT" then
    match operands with
    | [c, a, h] =>
      match readCore c, readNumber a, readNumber h with
      | some core, some addr, some hist => some (.predict core addr hist)
      | _, _, _ => none
    | _ => none
  else if mnemonic = "UPDATE" then
    match operands with
    | [c, a, h, t, k] =>
      match readCore c, readNumber a, readNumber h, readOutcome t, readClass k with
      | some core, some addr, some hist, some taken, some conditional => some (.update core addr hist taken conditional)
      | _, _, _, _, _ => none
    | _ => none
  else if mnemonic = "TRAIN" then
    match operands with
    | [c, a, h, t] =>
      match readCore c, readNumber a, readNumber h, readOutcome t with
      | some core, some addr, some hist, some taken => some (.train core addr hist taken)
      | _, _, _, _ => none
    | _ => none
  else if mnemonic = "FULL" then readOneCore .full operands
  else if mnemonic = "TIMESTAMP" then readOneCore .timestamp operands
  else if mnemonic = "RECOVER" then readOneCore .recover operands
  else if mnemonic = "SPEC_UPDATE" then readOneCore .specUpdate operands
  else if mnemonic = "RETIRE" then readOneCore .retire operands
  else if mnemonic = "NOTBR" then readOneCore .notBranch operands
  else none

/-- The command a line holds, or none if it is no line of the syntax. -/
def readLine (line : String) : Option AsmCommand :=
  let text := stripComment line.toList
  readCommand (String.ofList (mnemonicOf text)) (operandsOf text)

/-- The word a line assembles to. -/
def assembleLine (p : PortWidths) (line : String) : Option CmdWord := (readLine line).bind (AsmCommand.assemble p)

/-- The words of a program, one command per line; a line that holds only a comment or blanks holds no command. -/
def assembleProgram (p : PortWidths) : List String → Option (List CmdWord)
  | [] => some []
  | line :: lines =>
    if stripComment line.toList = [] then assembleProgram p lines
    else
      match assembleLine p line, assembleProgram p lines with
      | some w, some ws => some (w :: ws)
      | _, _ => none

/-- The hexadecimal digit of a number below 16. -/
def hexDigit (n : Nat) : Char := if n < 10 then Char.ofNat (48 + n) else Char.ofNat (55 + n)

/-- The last `n` hexadecimal digits of `v`, the most significant first. -/
def hexDigits : Nat → Nat → List Char
  | 0, _ => []
  | n + 1, v => hexDigits n (v / 16) ++ [hexDigit (v % 16)]

/-- A field of `n` bits in hexadecimal, as many digits as it takes. -/
def hexField (n v : Nat) : List Char := hexDigits ((n + 3) / 4) v

/-- The written form of a word in three groups, at the instance's widths `ADDR(16 hex digits)_HIST(8)_CTRL(4)` (R56). -/
def writtenForm (p : PortWidths) (w : CmdWord) : String :=
  String.ofList (['0', 'x'] ++ hexField p.addrW (fieldAddr p w) ++ ['_'] ++ hexField p.histW (fieldHist p w) ++ ['_'] ++
    hexField p.ctlW (fieldAt w 0 p.ctlW))

end Sys2Proof.Machine
end

