-- ==== Sys2Proof/Machine/Row.lean ====
section
/-! DEFINITION. The bit pattern of an SRAM row (20_memory.md R31), a view of an Entry that no port shows and no command
depends on (notes/assumptions 15). -/

namespace Sys2Proof.Machine

/-- `enc_8(v)`: the 8-bit two's-complement pattern (00_scope.md R10). -/
def enc8 (v : Int) : BitVec 8 := BitVec.ofInt 8 v

/-- `sext_8(v)`: the pattern read as two's complement (R10). -/
def sext8 (b : BitVec 8) : Int := b.toInt

/-- The fields one after another, 8 bits each, the first in the least significant place. -/
def packRow : List Int → Nat
  | [] => 0
  | v :: vs => (enc8 v).toNat + 256 * packRow vs

/-- The first `n` fields of a pattern. -/
def unpackRow : Nat → Nat → List Int
  | 0, _ => []
  | n + 1, r => sext8 (BitVec.ofNat 8 r) :: unpackRow n (r / 256)

/-- The row of Entry `e`: bias in bits [7:0], `w[i]` in bits [8i+15:8i+8] (R31). -/
def entryToRow (H : Nat) (e : Entry) : BitVec (8 * (H + 1)) := BitVec.ofNat _ (packRow (e.bias :: e.w))

/-- The Entry an SRAM read decodes from a row (R31). -/
def rowToEntry (H : Nat) (row : BitVec (8 * (H + 1))) : Entry :=
  { bias := sext8 (BitVec.ofNat 8 row.toNat), w := unpackRow H (row.toNat / 256) }

end Sys2Proof.Machine
end

