-- ==== Sys2Proof/Safety.lean ====
section
/-! DEFINITION. What a safe state and a safe run are: the invariants the spec states of every state the block can reach
(10_state.md R15, R21, R23, R28; 20_memory.md R37), and a run that completes without a fault (60_exceptions.md R93). -/

namespace Sys2Proof.Machine

/-- A field of an Entry lies in [-128, 127] (R15). -/
def inRange8 (v : Int) : Bool := decide (-128 ≤ v) && decide (v ≤ 127)

/-- An Entry has exactly `H` weights (R14), and every field of it lies in [-128, 127] (R15). -/
def Entry.fits (H : Nat) (e : Entry) : Bool := decide (e.w.length = H) && (e.bias :: e.w).all inRange8

/-- Tables in canonical form, whose listed rows exist (R37) and whose Entries fit (R15). -/
def tablesOk (cfg : Config) (m : Memory) : Bool :=
  Memory.wf (zeroEntry cfg.H) m && m.all fun p => decide (p.1 < cfg.numCores * 2 ^ cfg.H) && p.2.fits cfg.H

/-- What holds in every state the block can reach. -/
structure State.Inv (s : State) : Prop where
  /-- The parameters are a configuration of this block (R8). -/
  config : cfgOk s.cfg = true
  /-- `tbl = none` if and only if `initDone = false` (R28). -/
  tables : s.tbl.isSome = s.initDone
  /-- The tables hold only rows that exist and fields in range (R15, R37). -/
  entries : ∀ m, s.tbl = some m → tablesOk s.cfg m = true
  /-- `HALTED = 0` if and only if `FAULT_CAUSE = 0` (R23). -/
  cause : s.halted = false ↔ s.faultCause = 0
  /-- If `HALTED = 0`, then `FAULT_OP = 0` and `FAULT_CORE = 0` (R23). -/
  quiet : s.halted = false → s.faultOp = 0 ∧ s.faultCore = 0
  /-- `FAULT_CORE` has `CID_W` bits (R21). -/
  core : s.faultCore < 2 ^ s.cfg.cidW
  /-- `FAULT_CAUSE` holds only the codes 0 to 4 (R21). -/
  legal : s.faultCause.toNat ≤ 4

/-- The fault state of R93. -/
def State.isFaultState (s : State) : Bool := s.halted

/-- A run of `k` steps that does all the host asked for and is in no fault state at any point, its first and its last state
among them: what "the run completes without a fault" means. A reset leaves the halted state and takes nothing back: a run that
was halted before it has not completed without a fault (R93). -/
def CompletesWithoutFault (k : Nat) (s : State) : Prop :=
  (∃ t : State, Sys2Proof.core.run k s = .next t ∧ t.host = []) ∧
    ∀ (j : Nat) (t : State), j ≤ k → Sys2Proof.core.run j s = .next t → t.isFaultState = false

end Sys2Proof.Machine
end

