-- ==== Sys2Proof/Certificates/Slice0/Obligations.lean ====
section
/-! DEFINITION. The statements for the provers. Each docstring names the rule of the spec it formalises, or says what is the
model's own choice and the log entry that declares it. -/

namespace Sys2Proof.Spec

/-- `v[hi:lo]` as an unsigned number (00_scope.md R10), by arithmetic alone. -/
def bits (v hi lo : Nat) : Nat := v / 2 ^ lo % 2 ^ (hi - lo + 1)

/-- The width of the control word: 16 bits, and as many more as `CID_W` is wider than 8 (30_encoding.md R47). -/
def ctrl (p : PortWidths) : Nat := 16 + (p.cidW - 8)

/-- `OP`, `CORE`, `OUTCOME`, `COND`, `RSV`, `HIST` and `ADDR` of a command word at these widths, by arithmetic alone (R47; for a
`CID_W` below 8, notes/assumptions 20). -/
def opOf (w : CmdWord) : Nat := w % 16
def coreOf (p : PortWidths) (w : CmdWord) : Nat := w / 16 % 2 ^ p.cidW
def outcomeOf (p : PortWidths) (w : CmdWord) : Nat := w / 2 ^ (ctrl p - 4) % 2
def condOf (p : PortWidths) (w : CmdWord) : Nat := w / 2 ^ (ctrl p - 3) % 2
def rsvOf (p : PortWidths) (w : CmdWord) : Nat := w / 2 ^ (ctrl p - 2) % 4
def histOf (p : PortWidths) (w : CmdWord) : Nat := w / 2 ^ ctrl p % 2 ^ p.histW
def addrOf (p : PortWidths) (w : CmdWord) : Nat := w / 2 ^ (ctrl p + p.histW) % 2 ^ p.addrW

/-- The state after `raise Fault(code)` by a command with these `OP` and `CORE` (60_exceptions.md R92): only the three fault
registers, `HALTED` and the response differ, and the response is `{000, code, 0, 0}` (30_encoding.md R54). -/
def faultEntry (s : Machine.State) (code op core : Nat) : Machine.State :=
  { s with
    faultCause := BitVec.ofNat 3 code
    faultOp := BitVec.ofNat 4 op
    faultCore := core
    halted := true
    rsp := some (BitVec.ofNat 8 (4 * code)) }

/-- One step on `s` when the host's next event is to offer `w`. -/
def stepOn (s : Machine.State) (w : CmdWord) : Host.Outcome Machine.State Machine.Fault Machine.Refusal :=
  Machine.step { s with host := .cmd w :: s.host }

/-- Core `c` has its table and every Entry of it is the zero Entry. -/
def freshCore (s : Machine.State) (c : Nat) : Prop :=
  s.initDone = true ∧
    ∀ j, j < 2 ^ s.cfg.H → Machine.sramRead s (Machine.rowOf s.cfg.H c j) = some (Machine.zeroEntry s.cfg.H)

/-- How many fields of an Entry can still move towards `taken` under a history: the bias below 127, and each weight not yet at
the bound its history bit drives it to (41_training.md R78). -/
def unsaturated (histW : Nat) (e : Machine.Entry) (hist : Hist) : Nat :=
  (if e.bias < 127 then 1 else 0) +
    ((List.range e.w.length).filter fun i =>
      decide (e.w.getD i 0 ≠ (if hist.testBit (histW - 1 - i) then 127 else -128))).length

/-- Only offers of words that keep the duties of 70_reset_and_hazards.md R106 (rows 1 to 3) on an initialised block. -/
def dutiful (cfg : Config) (events : List Machine.HostEvent) : Prop :=
  ∀ ev ∈ events, ∃ w, ev = Machine.HostEvent.cmd w ∧ rsvOf cfg.toPortWidths w = 0 ∧ 1 ≤ opOf w ∧ opOf w ≤ 7 ∧
    coreOf cfg.toPortWidths w < cfg.numCores

/-- No pulse of `rst` among these events. -/
def noReset (events : List Machine.HostEvent) : Prop :=
  ∀ ev ∈ events, ∃ w, ev = Machine.HostEvent.cmd w

end Sys2Proof.Spec

open Sys2Proof Sys2Proof.Machine Sys2Proof.Spec

/-- Words of 95_test_vectors.md section 2.6 and 3, and the commands they are written for; then words written out from R47's general
columns for a 16-bit history and a 32-bit address, and for a `CID_W` of 16, which moves every later field up by 8 bits. -/
def Obligations.SpecWordsDecodeToTheirCommands : Prop :=
  decode instanceConfig.toPortWidths 0x0000000000000000000000000000 = .init 0 ∧
  decode instanceConfig.toPortWidths 0x0000000000001000000000000001 = .predict 0 0 0x1000 ∧
  decode instanceConfig.toPortWidths 0x00000000000010048FFFFFFF0011 = .predict 1 0x8FFFFFFF 0x1004 ∧
  decode instanceConfig.toPortWidths 0x0000000000001000000000002002 = .update 0 false true 0 0x1000 ∧
  decode instanceConfig.toPortWidths 0x0000000000002000FFF000003002 = .update 0 true true 0xFFF00000 0x2000 ∧
  decode instanceConfig.toPortWidths 0x0000000000001000000000000FF2 = .update 255 false false 0 0x1000 ∧
  decode instanceConfig.toPortWidths 0x0000000000000000000000000003 = .full 0 ∧
  decode instanceConfig.toPortWidths 0x0000000000000000000000000014 = .timestamp 1 ∧
  decode instanceConfig.toPortWidths 0x0000000000000000000000000005 = .recover 0 ∧
  decode instanceConfig.toPortWidths 0x0000000000000000000000000006 = .specUpdate 0 ∧
  decode instanceConfig.toPortWidths 0x0000000000000000000000000007 = .retire 0 ∧
  decode instanceConfig.toPortWidths 0x0000000000000000000000000038 = .reservedOp 8 3 ∧
  decode instanceConfig.toPortWidths 0x0000000000001000000000004001 = .reservedRsv 1 1 0 ∧
  decode ⟨16, 32, 8⟩ 0x000010048FFF0011 = .predict 1 0x8FFF 0x1004 ∧
  decode ⟨32, 64, 16⟩ 0x000000000000200080000000301FF2 = .update 0x1FF true true 0x80000000 0x2000 ∧
  decode ⟨32, 64, 16⟩ 0x400001 = .reservedRsv 1 1 0

/-- 30_encoding.md R52, with the general columns of R47 for `HIST_W` and `ADDR_W`: every word decodes to one of the eight commands
with its fields, or is illegal. Which of the two reserved rows an illegal word is, the model chooses (notes/assumptions 10); nothing
here depends on it. -/
def Obligations.DecodeFollowsTheFieldLayout : Prop :=
  ∀ (p : PortWidths) (w : CmdWord), p.cidW = 8 →
    ((bits w 15 14 ≠ 0 ∨ 8 ≤ bits w 3 0) →
      (∃ op core, decode p w = .reservedOp op core) ∨ ∃ rsv op core, decode p w = .reservedRsv rsv op core) ∧
    (bits w 15 14 = 0 →
      (bits w 3 0 = 0 → decode p w = .init (bits w 11 4)) ∧
      (bits w 3 0 = 1 → decode p w = .predict (bits w 11 4) (w / 2 ^ 16 % 2 ^ p.histW) (w / 2 ^ (16 + p.histW) % 2 ^ p.addrW)) ∧
      (bits w 3 0 = 2 → decode p w = .update (bits w 11 4) (decide (bits w 12 12 = 1)) (decide (bits w 13 13 = 1))
        (w / 2 ^ 16 % 2 ^ p.histW) (w / 2 ^ (16 + p.histW) % 2 ^ p.addrW)) ∧
      (bits w 3 0 = 3 → decode p w = .full (bits w 11 4)) ∧
      (bits w 3 0 = 4 → decode p w = .timestamp (bits w 11 4)) ∧
      (bits w 3 0 = 5 → decode p w = .recover (bits w 11 4)) ∧
      (bits w 3 0 = 6 → decode p w = .specUpdate (bits w 11 4)) ∧
      (bits w 3 0 = 7 → decode p w = .retire (bits w 11 4)))

/-- Decode and encode agree on every well-formed instruction, every operand at every value, at every choice of the port widths; and
the word of a well-formed instruction fits in `CMD_W` bits. Below a `CID_W` of 8 the layout is the model's (notes/assumptions 20). -/
def Obligations.DecodeEncodeRoundTrip : Prop :=
  ∀ (p : PortWidths) (i : Instr), i.wf p = true → decode p (encode p i) = i ∧ encode p i < 2 ^ p.cmdW

/-- 30_encoding.md section 2, R50: two words that agree on the fields their command uses do the same. For INIT this holds whole
while `INIT_DONE = 0`; an INIT that faults REINIT records its `CORE` (60_exceptions.md R92), so there only `FAULT_CORE` may differ:
that reading of R50 is the model's (notes/assumptions 9). Below a `CID_W` of 8 it says too that the unused bits of [11:4] never matter,
which is the model's layout (notes/assumptions 20). -/
def Obligations.IgnoredFieldsNeverMatter : Prop :=
  ∀ (s : State) (w w' : CmdWord), opOf w = opOf w' → rsvOf s.cfg.toPortWidths w = rsvOf s.cfg.toPortWidths w' →
    (opOf w = 0 → rsvOf s.cfg.toPortWidths w = 0 →
      (s.initDone = false → stepOn s w = stepOn s w') ∧
      ∀ t t', stepOn s w = .next t → stepOn s w' = .next t' → t' = { t with faultCore := t'.faultCore }) ∧
    (coreOf s.cfg.toPortWidths w = coreOf s.cfg.toPortWidths w' →
      (opOf w = 1 → histOf s.cfg.toPortWidths w = histOf s.cfg.toPortWidths w' →
        addrOf s.cfg.toPortWidths w = addrOf s.cfg.toPortWidths w' → stepOn s w = stepOn s w') ∧
      (opOf w = 2 → condOf s.cfg.toPortWidths w = 0 → condOf s.cfg.toPortWidths w' = 0 → stepOn s w = stepOn s w') ∧
      (opOf w = 2 → outcomeOf s.cfg.toPortWidths w = outcomeOf s.cfg.toPortWidths w' →
        condOf s.cfg.toPortWidths w = condOf s.cfg.toPortWidths w' →
        histOf s.cfg.toPortWidths w = histOf s.cfg.toPortWidths w' →
        addrOf s.cfg.toPortWidths w = addrOf s.cfg.toPortWidths w' → stepOn s w = stepOn s w') ∧
      (3 ≤ opOf w → stepOn s w = stepOn s w') ∧
      (rsvOf s.cfg.toPortWidths w ≠ 0 → stepOn s w = stepOn s w'))

/-- 40_lookup.md R57, R59 and R67: PREDICT and UPDATE use of `ADDR` only bits [H+1:2], and of `HIST` only the top `H` bits. -/
def Obligations.LookupReadsOnlyIndexAndTopHistory : Prop :=
  ∀ (s : State) (core : CoreId) (outcome cond : Bool) (h h' : Hist) (a a' : Addr), s.Inv →
    (∀ k, 2 ≤ k → k < s.cfg.H + 2 → a.testBit k = a'.testBit k) →
    (∀ k, s.cfg.histW - s.cfg.H ≤ k → k < s.cfg.histW → h.testBit k = h'.testBit k) →
    exec (.predict core h a) s = exec (.predict core h' a') s ∧
      exec (.update core outcome cond h a) s = exec (.update core outcome cond h' a') s

/-- 41_training.md section 2: `THETA` is the exact floor for every `H`, with the section's table of values, and the instance's
`THETA` is 37. -/
def Obligations.ThetaIsTheExactFloor : Prop :=
  (∀ H : Nat, (thetaOf H : Int) = ⌊(1.93 : ℚ) * H + 14⌋) ∧
  (List.range' 1 32).map thetaOf =
    [15, 17, 19, 21, 23, 25, 27, 29, 31, 33, 35, 37, 39, 41, 42, 44, 46, 48, 50, 52, 54, 56, 58, 60, 62, 64, 66, 68, 69, 71, 73,
      75] ∧
  State.reset.cfg.theta = 37

/-- 00_scope.md R8: one of the constraints is broken exactly when a step is refused for its configuration. That it is a step that
refuses is the model's reading (notes/assumptions 17). -/
def Obligations.OnlyConfigurationsOfThisBlockRun : Prop :=
  ∀ s : State, step s = .refused .badConfiguration ↔
    ¬ (1 ≤ s.cfg.H ∧ s.cfg.H ≤ s.cfg.histW ∧ s.cfg.H + 2 ≤ s.cfg.addrW ∧ 1 ≤ s.cfg.numCores ∧ s.cfg.numCores ≤ 2 ^ s.cfg.cidW ∧
      8 + Nat.clog 2 (s.cfg.H + 1) ≤ s.cfg.accW)

/-- 00_scope.md R9: no step changes a parameter. -/
def Obligations.ParametersNeverChange : Prop :=
  ∀ s t : State, step s = .next t → t.cfg = s.cfg

/-- 40_lookup.md R63: an accumulator of `ACC_W_MIN(H)` bits or more never overflows, in any accumulation order, and holds the
exact score; `ACC_W_MIN` is 12 at H = 12 and the instance uses 32. -/
def Obligations.AccumulatorNeverOverflows : Prop :=
  (∀ (H histW n : Nat) (e : Entry) (hist : Hist), e.fits H = true → accWMin H ≤ n →
    (accumulate n histW e hist).toInt = score histW e hist ∧
    ∀ order part : List Int, order.Perm (products histW e hist) → part <+: order →
      -128 * ((part.length : Int) + 1) ≤ e.bias + part.sum ∧ e.bias + part.sum ≤ 127 + 128 * (part.length : Int) ∧
      -(2 ^ (n - 1) : Int) ≤ e.bias + part.sum ∧ e.bias + part.sum < 2 ^ (n - 1)) ∧
  (∀ H : Nat, accWMin H = 8 + Nat.clog 2 (H + 1)) ∧ accWMin 12 = 12 ∧ State.reset.cfg.accW = 32

/-- 40_lookup.md R57: the indexer drops bits [1:0], keeps the next `H`, and cannot be out of bounds. -/
def Obligations.IndexKeepsBitsAboveAlignment : Prop :=
  (∀ (H : Nat) (addr : Addr), index H addr = addr / 4 % 2 ^ H ∧ index H addr < 2 ^ H) ∧
  (∀ addr : Addr, index 12 addr = bits addr 13 2) ∧ index 12 0x1000 = 0x400

/-- 40_lookup.md R58: two addresses select the same slot if and only if they agree on bits [H+1:2]. -/
def Obligations.AliasingIsAgreementOnIndexBits : Prop :=
  (∀ (H : Nat) (a1 a2 : Addr), index H a1 = index H a2 ↔ ∀ k, 2 ≤ k → k < H + 2 → a1.testBit k = a2.testBit k) ∧
  (∀ (H : Nat) (a1 a2 : Addr), (∀ k, 2 ≤ k → a1.testBit k = a2.testBit k) → index H a1 = index H a2) ∧
  (∀ (H : Nat) (a1 a2 : Addr), (∀ k, k < H + 2 → a1.testBit k = a2.testBit k) → index H a1 = index H a2) ∧
  index 12 0x1000 = index 12 0x5000

/-- 40_lookup.md R61 with the inputs of R60: the score is the exact sum, in any order of accumulation. -/
def Obligations.ScoreIsTheExactSum : Prop :=
  ∀ (histW : Nat) (e : Entry) (hist : Hist),
    score histW e hist =
      e.bias + ∑ i ∈ Finset.range e.w.length, e.w.getD i 0 * (if hist.testBit (histW - 1 - i) = true then 1 else -1) ∧
    ∀ order : List Int, order.Perm (products histW e hist) → score histW e hist = e.bias + order.sum

/-- 40_lookup.md R62: the score's range, and that both ends are reached. -/
def Obligations.ScoreRangeIsTight : Prop :=
  (∀ (H histW : Nat) (e : Entry) (hist : Hist), e.fits H = true →
    -128 * ((H : Int) + 1) ≤ score histW e hist ∧ score histW e hist ≤ 127 + 128 * (H : Int)) ∧
  (∀ H histW : Nat, (⟨127, List.replicate H (-128)⟩ : Entry).fits H = true ∧
    score histW ⟨127, List.replicate H (-128)⟩ 0 = 127 + 128 * (H : Int)) ∧
  (∀ H histW : Nat, H ≤ histW → (⟨-128, List.replicate H (-128)⟩ : Entry).fits H = true ∧
    score histW ⟨-128, List.replicate H (-128)⟩ (2 ^ histW - 1) = -128 * ((H : Int) + 1))

/-- 40_lookup.md R64: taken exactly when the score is at least 0, and a score of 0 is taken. -/
def Obligations.ZeroScorePredictsTaken : Prop :=
  (∀ s : Int, (0 ≤ s → direction s = true) ∧ (s < 0 → direction s = false)) ∧ direction 0 = true

/-- 41_training.md R68: the clamp is exact. -/
def Obligations.SaturateClampsToEightBits : Prop :=
  (∀ v : Int, (v < -128 → saturate v = -128) ∧ (127 < v → saturate v = 127) ∧
    (-128 ≤ v → v ≤ 127 → saturate v = v)) ∧ saturate (127 + 1) = 127

/-- 41_training.md R69: a training step clamps in exactly two cases. -/
def Obligations.TrainingStepClampsInTwoCasesOnly : Prop :=
  ∀ f d : Int, -128 ≤ f → f ≤ 127 → d = 1 ∨ d = -1 →
    (f = 127 → d = 1 → saturate (f + d) = 127) ∧ (f = -128 → d = -1 → saturate (f + d) = -128) ∧
    (¬ (f = 127 ∧ d = 1) → ¬ (f = -128 ∧ d = -1) → saturate (f + d) = f + d)

/-- 41_training.md R71: every misprediction trains; a correct prediction trains exactly when `abs(s) < THETA`, strictly; the
values at H = 12. -/
def Obligations.GateTrainsOnMissOrLowMargin : Prop :=
  (∀ (theta : Nat) (s : Int), gate theta s (!direction s) = true ∧ (gate theta s (direction s) = true ↔ |s| < (theta : Int))) ∧
  (∀ s : Int, gate (thetaOf 12) s (direction s) = true ↔ -36 ≤ s ∧ s ≤ 36)

/-- 41_training.md R72 and R73: with the gate closed the Entry is unchanged; with it open the bias moves by `y` and each weight
by `x_i * y`, each saturating, the gate reading the score before any field changes. -/
def Obligations.TrainMovesEveryFieldTowardsOutcome : Prop :=
  ∀ (histW theta : Nat) (e : Entry) (hist : Hist) (outcome : Bool),
    (gate theta (score histW e hist) outcome = false → train histW theta e hist outcome = e) ∧
    (gate theta (score histW e hist) outcome = true →
      (train histW theta e hist outcome).bias = saturate (e.bias + (if outcome then 1 else -1)) ∧
      (train histW theta e hist outcome).w.length = e.w.length ∧
      ∀ i, i < e.w.length → (train histW theta e hist outcome).w.getD i 0 =
        saturate (e.w.getD i 0 + (if hist.testBit (histW - 1 - i) then 1 else -1) * (if outcome then 1 else -1)))

/-- 40_lookup.md section 2 (R60): which history bit pairs with which weight cannot be observed. An Entry whose weights stand in
another order, read against history bits in that same order, has the same score, trains to the same bias, and its trained weights
stand in that order again. -/
def Obligations.PairingOfWeightsIsUnobservable : Prop :=
  ∀ (H histW theta : Nat) (order : Equiv.Perm (Fin H)) (e e' : Entry) (hist hist' : Hist) (outcome : Bool),
    e.w.length = H → e'.w.length = H → e'.bias = e.bias →
    (∀ i : Fin H, e'.w.getD i 0 = e.w.getD (order i) 0) →
    (∀ i : Fin H, hist'.testBit (histW - 1 - i) = hist.testBit (histW - 1 - order i)) →
    score histW e' hist' = score histW e hist ∧ (train histW theta e' hist' outcome).bias = (train histW theta e hist outcome).bias ∧
      ∀ i : Fin H, (train histW theta e' hist' outcome).w.getD i 0 = (train histW theta e hist outcome).w.getD (order i) 0

/-- 41_training.md R77: training changes an Entry if and only if the gate is open. -/
def Obligations.TrainChangesEntryExactlyWhenGateOpens : Prop :=
  ∀ (H histW : Nat) (e : Entry) (hist : Hist) (outcome : Bool), 1 ≤ H → e.fits H = true →
    (train histW (thetaOf H) e hist outcome ≠ e ↔ gate (thetaOf H) (score histW e hist) outcome = true)

/-- 41_training.md section 5, R78: a training step towards taken raises the score by exactly the number of fields not yet
saturated; once the score reaches `THETA` the Entry stays; from the zero Entry at H = 12 the scores are 0, 13, 26, 39. -/
def Obligations.TrainingRaisesScoreUntilGateCloses : Prop :=
  (∀ (H histW theta : Nat) (e : Entry) (hist : Hist), e.fits H = true → score histW e hist < (theta : Int) →
    score histW (train histW theta e hist true) hist = score histW e hist + (unsaturated histW e hist : Int)) ∧
  (∀ (histW theta : Nat) (e : Entry) (hist : Hist), (theta : Int) ≤ score histW e hist → train histW theta e hist true = e) ∧
  (∀ (histW : Nat) (hist : Hist),
    let step1 := train histW 37 (zeroEntry 12) hist true
    let step2 := train histW 37 step1 hist true
    let step3 := train histW 37 step2 hist true
    score histW (zeroEntry 12) hist = 0 ∧ score histW step1 hist = 13 ∧ score histW step2 hist = 26 ∧ score histW step3 hist = 39 ∧
      train histW 37 step3 hist true = step3)

/-- 20_memory.md R31: the row of an Entry, field by field, and that decoding it gives the Entry back. The row is a view of an Entry
that no command of the model uses, and its pattern is from general knowledge (notes/assumptions 15). -/
def Obligations.RowLayoutRoundTrip : Prop :=
  ∀ (H : Nat) (e : Entry), e.fits H = true →
    rowToEntry H (entryToRow H e) = e ∧
    (entryToRow H e).extractLsb' 0 8 = BitVec.ofInt 8 e.bias ∧
    ∀ i, i < H → (entryToRow H e).extractLsb' (8 * i + 8) 8 = BitVec.ofInt 8 (e.w.getD i 0)

/-- 42_lifecycle.md section 1: the first INIT completes; it makes every Entry zero and `INIT_DONE` 1, answers 0, and changes
nothing else. -/
def Obligations.InitZeroesEveryTable : Prop :=
  ∀ (core : CoreId) (s : State), s.initDone = false →
    ∃ t m, exec (.init core) s = .next t ∧ t = { s with tbl := some m, initDone := true, rsp := some 0x00 } ∧
      ∀ c j, c < s.cfg.numCores → j < 2 ^ s.cfg.H → sramRead t (c * 2 ^ s.cfg.H + j) = some ⟨0, List.replicate s.cfg.H 0⟩

/-- A second INIT faults REINIT and zeroes nothing (42_lifecycle.md section 1; 60_exceptions.md section 3). That `FAULT_CORE`
takes the `CORE` of an INIT, which R50 says INIT ignores, is the model's reading (notes/assumptions 9). -/
def Obligations.SecondInitFaults : Prop :=
  ∀ (core : CoreId) (s : State), s.initDone = true → exec (.init core) s = .next (faultEntry s 3 0 core)

/-- 40_lookup.md section 5: PREDICT completes for every core that exists once the block is initialised; it answers the direction
of the selected Entry's score and changes nothing else. -/
def Obligations.PredictAnswersTheDirection : Prop :=
  ∀ (core : CoreId) (hist : Hist) (addr : Addr) (s : State) (e : Entry),
    s.initDone = true → core < s.cfg.numCores →
    sramRead s (core * 2 ^ s.cfg.H + addr / 4 % 2 ^ s.cfg.H) = some e →
    exec (.predict core hist addr) s = .next { s with rsp := some (if 0 ≤ score s.cfg.histW e hist then 0x01 else 0x00) }

/-- 41_training.md section 4: UPDATE of a conditional branch completes; the selected Entry becomes the trained one, every other
row reads as before, the response is 0, and nothing else changes. -/
def Obligations.UpdateTrainsTheSelectedEntry : Prop :=
  ∀ (core : CoreId) (outcome : Bool) (hist : Hist) (addr : Addr) (s : State) (m : Memory),
    s.initDone = true → s.tbl = some m → Memory.wf (zeroEntry s.cfg.H) m = true → core < s.cfg.numCores →
    ∃ t m', exec (.update core outcome true hist addr) s = .next t ∧
      t = { s with tbl := some m', rsp := some 0x00 } ∧
      sramRead t (commandRow s.cfg core addr) =
        some (train s.cfg.histW s.cfg.theta (Memory.read (zeroEntry s.cfg.H) m (commandRow s.cfg core addr)) hist outcome) ∧
      ∀ r, r ≠ commandRow s.cfg core addr → sramRead t r = sramRead s r

/-- 41_training.md section 4: UPDATE with `COND = 0` completes, answers 0 and changes nothing else. -/
def Obligations.UpdateOfNonBranchChangesNothing : Prop :=
  ∀ (core : CoreId) (outcome : Bool) (hist : Hist) (addr : Addr) (s : State),
    s.initDone = true → core < s.cfg.numCores →
    exec (.update core outcome false hist addr) s = .next { s with rsp := some 0x00 }

/-- 70_reset_and_hazards.md section 4 (R107): "a PREDICT issued straight after an UPDATE of the same slot sees the trained Entry",
here for every address that selects the same slot and every history. -/
def Obligations.PredictSeesTheUpdateBeforeIt : Prop :=
  ∀ (core : CoreId) (outcome : Bool) (hist hist' : Hist) (addr addr' : Addr) (s : State) (m : Memory),
    s.initDone = true → s.tbl = some m → Memory.wf (zeroEntry s.cfg.H) m = true → core < s.cfg.numCores →
    index s.cfg.H addr' = index s.cfg.H addr →
    ∃ t u, exec (.update core outcome true hist addr) s = .next t ∧ exec (.predict core hist' addr') t = .next u ∧
      u.rsp = some (if 0 ≤ score s.cfg.histW (train s.cfg.histW s.cfg.theta
        (Memory.read (zeroEntry s.cfg.H) m (rowOf s.cfg.H core (index s.cfg.H addr))) hist outcome) hist' then 0x01 else 0x00)

/-- 42_lifecycle.md sections 2 and 3: FULL answers "not full" and each of the four hooks answers 0; none changes anything else. -/
def Obligations.CapacityQueryAndHooksAnswerZero : Prop :=
  ∀ (core : CoreId) (s : State), s.initDone = true → core < s.cfg.numCores →
    exec (.full core) s = .next { s with rsp := some 0x00 } ∧
    exec (.timestamp core) s = .next { s with rsp := some 0x00 } ∧
    exec (.recover core) s = .next { s with rsp := some 0x00 } ∧
    exec (.specUpdate core) s = .next { s with rsp := some 0x00 } ∧
    exec (.retire core) s = .next { s with rsp := some 0x00 }

/-- 30_encoding.md section 2: a reserved encoding raises ILLEGAL_CMD in every state and has no other effect. -/
def Obligations.ReservedWordsRaiseIllegalCommand : Prop :=
  ∀ (rsv : BitVec 2) (op : BitVec 4) (core : CoreId) (s : State),
    exec (.reservedOp op core) s = .next (faultEntry s 1 op.toNat core) ∧
    exec (.reservedRsv rsv op core) s = .next (faultEntry s 1 op.toNat core)

/-- 60_exceptions.md R90: every command other than INIT faults NOT_INIT before INIT. -/
def Obligations.UseBeforeInitFaults : Prop :=
  ∀ (i : Instr) (s : State), carriesCore i = true → s.initDone = false →
    exec i s = .next (faultEntry s 2 (headerOf i).op.toNat (headerOf i).core)

/-- 60_exceptions.md R89: a core out of range faults CORE_RANGE for every command that carries a core. -/
def Obligations.CoreOutOfRangeFaults : Prop :=
  ∀ (i : Instr) (s : State), carriesCore i = true → s.initDone = true → s.cfg.numCores ≤ (headerOf i).core →
    exec i s = .next (faultEntry s 4 (headerOf i).op.toNat (headerOf i).core)

/-- 60_exceptions.md R91 and R92: the word a block accepts reports the first fault in the order of `precheck`, with `OP` and
`CORE` recorded and nothing else changed; a word that passes `precheck` raises none. That the `CORE` of an INIT is recorded is the
model's reading of R92 against R50 (notes/assumptions 9). Below a `CID_W` of 8 the fields stand where the model puts them, and a word
with a 1 in the unused bits of [11:4] passes `precheck` (notes/assumptions 20). -/
def Obligations.PrecheckReportsTheFirstFault : Prop :=
  ∀ (s : State) (w : CmdWord), cfgOk s.cfg = true → s.halted = false → s.tbl.isSome = s.initDone →
    ((rsvOf s.cfg.toPortWidths w ≠ 0 ∨ 8 ≤ opOf w) →
      stepOn s w = .next (faultEntry s 1 (opOf w) (coreOf s.cfg.toPortWidths w))) ∧
    (rsvOf s.cfg.toPortWidths w = 0 → opOf w = 0 → s.initDone = true →
      stepOn s w = .next (faultEntry s 3 (opOf w) (coreOf s.cfg.toPortWidths w))) ∧
    (rsvOf s.cfg.toPortWidths w = 0 → opOf w = 0 → s.initDone = false →
      ∃ t, stepOn s w = .next t ∧ t.halted = false ∧ t.faultCause = s.faultCause ∧ t.rsp = some 0x00) ∧
    (rsvOf s.cfg.toPortWidths w = 0 → 1 ≤ opOf w → opOf w ≤ 7 →
      (s.initDone = false → stepOn s w = .next (faultEntry s 2 (opOf w) (coreOf s.cfg.toPortWidths w))) ∧
      (s.initDone = true → s.cfg.numCores ≤ coreOf s.cfg.toPortWidths w →
        stepOn s w = .next (faultEntry s 4 (opOf w) (coreOf s.cfg.toPortWidths w))) ∧
      (s.initDone = true → coreOf s.cfg.toPortWidths w < s.cfg.numCores →
        ∃ t v, stepOn s w = .next t ∧ t.halted = false ∧ t.faultCause = s.faultCause ∧ t.rsp = some v ∧
          (v = 0x00 ∨ v = 0x01)))

/-- 20_memory.md section 2 (the accesses of each command) and 10_state.md section 1: an instruction that changes the tables is
INIT, or an UPDATE with `COND = 1` whose gate is open, and that one changes its own row only. -/
def Obligations.OnlyInitAndTrainingWriteTables : Prop :=
  ∀ (i : Instr) (s t : State), i.wf s.cfg.toPortWidths = true → exec i s = .next t → t.tbl ≠ s.tbl → s.Inv →
    (∃ core, i = .init core ∧ s.initDone = false) ∨
    (∃ core outcome hist addr e, i = .update core outcome true hist addr ∧ s.initDone = true ∧
      sramRead s (commandRow s.cfg core addr) = some e ∧ gate s.cfg.theta (score s.cfg.histW e hist) outcome = true ∧
      ∀ r, r ≠ commandRow s.cfg core addr → sramRead t r = sramRead s r)

/-- 10_state.md section 3 (the "written by" column): the fault registers and `HALTED` change only by a fault, which leaves the
tables and `INIT_DONE` alone; `INIT_DONE` changes only by INIT. It speaks of instructions: `rst` resets these registers too. That
`FAULT_CORE` takes the `CORE` of an INIT is the model's reading (notes/assumptions 9). -/
def Obligations.StatusRegistersChangeOnlyByInitAndFaults : Prop :=
  ∀ (i : Instr) (s t : State), i.wf s.cfg.toPortWidths = true → s.halted = false → exec i s = .next t →
    (t.halted = false → t.faultCause = s.faultCause ∧ t.faultOp = s.faultOp ∧ t.faultCore = s.faultCore) ∧
    (t.halted = true → t.initDone = s.initDone ∧ t.tbl = s.tbl ∧ t.faultOp = (headerOf i).op ∧
      t.faultCore = (headerOf i).core ∧ 1 ≤ t.faultCause.toNat ∧ t.faultCause.toNat ≤ 4) ∧
    (t.initDone ≠ s.initDone → t.initDone = true ∧ ∃ core, i = .init core)

/-- 30_encoding.md R53: the response's fields, for every command. -/
def Obligations.ResponseFollowsItsLayout : Prop :=
  ∀ (i : Instr) (s t : State), i.wf s.cfg.toPortWidths = true → exec i s = .next t →
    ∃ v : RspWord, t.rsp = some v ∧ v.getLsbD 5 = false ∧ v.getLsbD 6 = false ∧ v.getLsbD 7 = false ∧ v.getLsbD 1 = false ∧
      (∀ c, precheck (headerOf i) s = some c → v.extractLsb' 2 3 = c.code ∧ v.getLsbD 0 = false) ∧
      (precheck (headerOf i) s = none → v.extractLsb' 2 3 = 0 ∧
        ((∀ core hist addr, i ≠ .predict core hist addr) → v.getLsbD 0 = false) ∧
        (∀ core hist addr e, i = .predict core hist addr → sramRead s (commandRow s.cfg core addr) = some e →
          v.getLsbD 0 = direction (score s.cfg.histW e hist)))

/-- 10_state.md section 3: the status registers on `status_o` and `fault_core_o`, reserved bits 0; `FAULT_CORE` fits its port in
every state that meets the invariant. -/
def Obligations.StatusPortsFollowTheirLayout : Prop :=
  ∀ s : State,
    (statusO s).toNat = s.faultOp.toNat * 2 ^ 8 + s.faultCause.toNat * 2 ^ 2 + s.halted.toNat * 2 + s.initDone.toNat ∧
    (s.Inv → (faultCoreO s).toNat = s.faultCore)

/-- 20_memory.md section 4 (R39) and 30_encoding.md section 1 (R46): a word the block accepts is decoded and executed on the state the
commands before it left. That the host's event is taken off a list, that the port's last response is gone, and that one step does it
are the model's choices (notes/assumptions 1, 16 and 14). -/
def Obligations.StepRunsTheDecodedCommand : Prop :=
  ∀ (s : State) (w : CmdWord) (rest : List HostEvent), cfgOk s.cfg = true → s.halted = false → s.host = .cmd w :: rest →
    step s = exec (decode s.cfg.toPortWidths w) { s with host := rest, rsp := none }

/-- The word that `withFetchWord` puts on the request port is what the next step of a block that is not halted decodes and runs; on a
block of the instance's port widths, for which the opcode table is written, it is the instruction `decodeTableWord` reads. How words
come to the request port is the model's choice (notes/assumptions 2). -/
def Obligations.OfferedTableWordRunsNext : Prop :=
  ∀ (s : State) (nbits w : Nat), cfgOk s.cfg = true → s.halted = false →
    step (s.withFetchWord nbits w) = exec (decode s.cfg.toPortWidths (w % 2 ^ nbits)) { s with rsp := none } ∧
    (s.cfg.toPortWidths = ⟨32, 64, 8⟩ → nbits ≤ 112 →
      decodeTableWord nbits w = some (decode s.cfg.toPortWidths (w % 2 ^ nbits)))

/-- 60_exceptions.md section 5 (R102, "An idle block simply waits"): with nothing asked of it a block that is not halted stays as
it is. That this is a next state is the model's choice (notes/assumptions 13). -/
def Obligations.IdleBlockWaits : Prop :=
  ∀ s : State, cfgOk s.cfg = true → s.halted = false → s.host = [] → step s = .next { s with rsp := none }

/-- 60_exceptions.md section 3 (R93): a halted block holds `req_ready` at 0, accepts nothing and keeps its tables and status
registers; only `rst` leaves the halted state. That an offer to a halted block is turned away as a next state, and that a halted
block the host is done with answers the model's fault, are the model's choices (notes/assumptions 7 and 8). -/
def Obligations.HaltedBlockAcceptsNothing : Prop :=
  ∀ s : State, cfgOk s.cfg = true → s.halted = true →
    reqReady s = false ∧
    (∀ w rest, s.host = .cmd w :: rest → step s = .next { s with host := rest, rsp := none }) ∧
    (s.host = [] → step s = .fault (.halted s.faultCause)) ∧
    (∀ t, step s = .next t → t.halted = false →
      ∃ rest, s.host = .rst :: rest ∨ ∃ w, s.host = .cmdThenRst w :: rest)

/-- 60_exceptions.md section 3 (R93): while no reset comes, no run from a halted block changes its tables or status registers; and
no run that is halted at any point completes without a fault, whatever resets come after. That an offer to a halted block and an
`rst` are steps of a run is the model's choice (notes/assumptions 7 and 8). -/
def Obligations.FaultRefutesCompletion : Prop :=
  ∀ (s : State) (k : Nat), s.halted = true →
    (noReset s.host → ∀ t, Sys2Proof.core.run k s = .next t →
      t.tbl = s.tbl ∧ t.initDone = s.initDone ∧ t.halted = true ∧ t.faultCause = s.faultCause ∧ t.faultOp = s.faultOp ∧
        t.faultCore = s.faultCore) ∧
    ¬ CompletesWithoutFault k s ∧
    ∀ (before : State) (n : Nat), Sys2Proof.core.run n before = .next s → ¬ CompletesWithoutFault (n + k) before

/-- 70_reset_and_hazards.md section 1: `rst` gives every status register its reset value in every state, leaves the tables
unspecified, held as absent (notes/assumptions 5), and delivers no response. That a command in flight is an event with its reset is
the model's reading (notes/assumptions 12). -/
def Obligations.HardwareResetRestoresStatus : Prop :=
  ∀ (s : State) (rest : List HostEvent), cfgOk s.cfg = true →
    (s.host = .rst :: rest ∨ ∃ w, s.host = .cmdThenRst w :: rest) →
    step s = .next
      { tbl := none
        initDone := false
        halted := false
        faultCause := 0
        faultOp := 0
        faultCore := 0
        cfg := s.cfg
        host := rest
        rsp := none }

/-- 10_state.md section 5: the status registers after reset, and the tables absent (notes/assumptions 5). -/
def Obligations.ResetStateIsAsSpecified : Prop :=
  State.reset.initDone = false ∧ State.reset.halted = false ∧ State.reset.faultCause = 0 ∧ State.reset.faultOp = 0 ∧
    State.reset.faultCore = 0 ∧ State.reset.tbl = none ∧ statusO State.reset = 0x0000 ∧ reqReady State.reset = true

/-- The reset state meets the invariant. -/
def Obligations.ResetMeetsTheInvariant : Prop := State.reset.Inv

/-- 10_state.md R15, R21, R23 and R28 with 41_training.md R76: every step, whatever the host does, keeps the tables canonical, every
Entry's shape and range, tables present exactly when initialised, the relations between the status registers, and `FAULT_CORE` within
`CID_W` bits. -/
def Obligations.EveryStepKeepsTheInvariant : Prop :=
  ∀ s t : State, s.Inv → step s = .next t → t.Inv

/-- 30_encoding.md section 1 and 70_reset_and_hazards.md section 5: no step of a block in a legal state stops, but for a halted
block the host is done with; and an accepted command gets exactly one response, in the step that accepts it. That an offer to a
halted block and an idle step are next states, and that one step answers a command, are the model's choices (notes/assumptions 8, 13
and 14). -/
def Obligations.EveryAcceptedCommandIsAnswered : Prop :=
  ∀ s : State, s.Inv →
    ((s.halted = false ∨ s.host ≠ []) → ∃ t, step s = .next t) ∧
    (∀ w rest, s.halted = false → s.host = .cmd w :: rest → ∃ t v, step s = .next t ∧ t.rsp = some v ∧ t.host = rest) ∧
    (∀ t, step s = .next t → t.rsp ≠ none → s.halted = false ∧ ∃ w rest, s.host = .cmd w :: rest)

/-- 10_state.md section 3 (R23) and 70_reset_and_hazards.md section 1: before INIT the only command that completes without a
fault is INIT, and it makes the block initialised. -/
def Obligations.BeforeInitOnlyInitCompletes : Prop :=
  ∀ (s t : State) (w : CmdWord) (rest : List HostEvent), s.initDone = false → s.halted = false → s.host = .cmd w :: rest →
    step s = .next t → t.halted = false → t.initDone = true ∧ ∃ core, decode s.cfg.toPortWidths w = .init core

/-- 20_memory.md section 4 (R40): two adjacent commands on different cores, neither of which faults, can be swapped: the final
state and both responses are the same. -/
def Obligations.CommandsOnDifferentCoresCommute : Prop :=
  ∀ (s : State) (m : Memory) (i j : Instr), s.initDone = true → s.tbl = some m → Memory.wf (zeroEntry s.cfg.H) m = true →
    carriesCore i = true → carriesCore j = true → (headerOf i).core < s.cfg.numCores →
    (headerOf j).core < s.cfg.numCores → (headerOf i).core ≠ (headerOf j).core →
    ∃ si sij sj sji, exec i s = .next si ∧ exec j si = .next sij ∧ exec j s = .next sj ∧ exec i sj = .next sji ∧
      { sij with rsp := none } = { sji with rsp := none } ∧ si.rsp = sji.rsp ∧ sij.rsp = sj.rsp

/-- 10_state.md R17: a command on core `c` reads and writes only `T[c]`. Two blocks that agree on core `c`'s table and on the
parameters give the same response and agree on it again, and every other core's rows stay as they were. -/
def Obligations.CoresShareNoState : Prop :=
  ∀ (s s' : State) (m m' : Memory) (i : Instr), s.initDone = true → s'.initDone = true → s.cfg = s'.cfg →
    s.tbl = some m → s'.tbl = some m' → Memory.wf (zeroEntry s.cfg.H) m = true → Memory.wf (zeroEntry s.cfg.H) m' = true →
    carriesCore i = true → (headerOf i).core < s.cfg.numCores →
    (∀ j, j < 2 ^ s.cfg.H →
      sramRead s (rowOf s.cfg.H (headerOf i).core j) = sramRead s' (rowOf s.cfg.H (headerOf i).core j)) →
    ∃ t t', exec i s = .next t ∧ exec i s' = .next t' ∧ t.rsp = t'.rsp ∧
      (∀ j, j < 2 ^ s.cfg.H →
        sramRead t (rowOf s.cfg.H (headerOf i).core j) = sramRead t' (rowOf s.cfg.H (headerOf i).core j)) ∧
      ∀ c j, c ≠ (headerOf i).core → j < 2 ^ s.cfg.H →
        sramRead t (rowOf s.cfg.H c j) = sramRead s (rowOf s.cfg.H c j)

/-- 40_lookup.md section 4 (R65): after INIT every core is fresh; a core stays fresh through every command but an UPDATE with
`COND = 1` on it; and on a fresh core every PREDICT answers taken. -/
def Obligations.FreshCorePredictsTaken : Prop :=
  (∀ (core : CoreId) (s t : State) (c : Nat), s.initDone = false → exec (.init core) s = .next t → freshCore t c) ∧
  (∀ (i : Instr) (s t : State) (c : Nat), i.wf s.cfg.toPortWidths = true → freshCore s c → c < s.cfg.numCores → exec i s = .next t →
    (∀ core outcome hist addr, core = c → i ≠ .update core outcome true hist addr) → freshCore t c) ∧
  (∀ (core : CoreId) (hist : Hist) (addr : Addr) (s : State), freshCore s core → core < s.cfg.numCores →
    exec (.predict core hist addr) s = .next { s with rsp := some 0x01 })

/-- 30_encoding.md section 4: the two pseudo-commands are exactly the commands they expand to, and the assembler refuses exactly
the values that do not fit their fields, writing every other field 0. Below a `CID_W` of 8 the word's layout, with the unused bits of
[11:4] written 0, is the model's (notes/assumptions 20). -/
def Obligations.AssemblerAcceptsExactlyFittingValues : Prop :=
  ∀ (p : PortWidths) (core addr hist : Nat) (taken conditional : Bool),
    AsmCommand.assemble p (.train core addr hist taken) = AsmCommand.assemble p (.update core addr hist taken true) ∧
    AsmCommand.assemble p (.notBranch core) = AsmCommand.assemble p (.update core 0 0 false false) ∧
    AsmCommand.assemble p (.predict core addr hist) =
      (if core < 2 ^ p.cidW ∧ addr < 2 ^ p.addrW ∧ hist < 2 ^ p.histW then
        some (addr * 2 ^ (ctrl p + p.histW) + hist * 2 ^ ctrl p + core * 2 ^ 4 + 1) else none) ∧
    AsmCommand.assemble p (.update core addr hist taken conditional) =
      (if core < 2 ^ p.cidW ∧ addr < 2 ^ p.addrW ∧ hist < 2 ^ p.histW then
        some (addr * 2 ^ (ctrl p + p.histW) + hist * 2 ^ ctrl p + conditional.toNat * 2 ^ (ctrl p - 3) +
          taken.toNat * 2 ^ (ctrl p - 4) + core * 2 ^ 4 + 2) else none) ∧
    AsmCommand.assemble p .init = some 0 ∧
    AsmCommand.assemble p (.full core) = (if core < 2 ^ p.cidW then some (core * 2 ^ 4 + 3) else none) ∧
    AsmCommand.assemble p (.timestamp core) = (if core < 2 ^ p.cidW then some (core * 2 ^ 4 + 4) else none) ∧
    AsmCommand.assemble p (.recover core) = (if core < 2 ^ p.cidW then some (core * 2 ^ 4 + 5) else none) ∧
    AsmCommand.assemble p (.specUpdate core) = (if core < 2 ^ p.cidW then some (core * 2 ^ 4 + 6) else none) ∧
    AsmCommand.assemble p (.retire core) = (if core < 2 ^ p.cidW then some (core * 2 ^ 4 + 7) else none)

/-- 30_encoding.md section 4 and 95_test_vectors.md section 3: lines of the syntax and the words the spec writes for them. -/
def Obligations.AssemblerLinesMatchTheWrittenForm : Prop :=
  (assembleLine ⟨32, 64, 8⟩ "PREDICT      c0, 0x1000, 0").map (writtenForm ⟨32, 64, 8⟩) =
    some "0x0000000000001000_00000000_0001" ∧
  (assembleLine ⟨32, 64, 8⟩ "TRAIN c0, 0x2000, 0xFFF00000, T").map (writtenForm ⟨32, 64, 8⟩) =
    some "0x0000000000002000_FFF00000_3002" ∧
  (assembleLine ⟨32, 64, 8⟩ "UPDATE c1, 0x1004, 0x80000000, N, C ; a comment").map (writtenForm ⟨32, 64, 8⟩) =
    some "0x0000000000001004_80000000_2012" ∧
  (assembleLine ⟨32, 64, 8⟩ "NOTBR c1").map (writtenForm ⟨32, 64, 8⟩) = some "0x0000000000000000_00000000_0012" ∧
  (assembleLine ⟨32, 64, 8⟩ "SPEC_UPDATE  c0").map (writtenForm ⟨32, 64, 8⟩) = some "0x0000000000000000_00000000_0006" ∧
  assembleLine ⟨32, 64, 8⟩ "FULL c256" = none ∧ (assembleLine ⟨32, 64, 9⟩ "FULL c256").isSome = true

/-- 30_encoding.md section 2 (R47's general columns and its last sentence, R52): the decoder reads every field at its place for every
choice of the port widths. Where the fields stand when `CID_W` is below 8 is the model's choice (notes/assumptions 20). -/
def Obligations.DecodeFollowsTheLayoutAtEveryWidth : Prop :=
  ∀ (p : PortWidths) (w : CmdWord),
    ((rsvOf p w ≠ 0 ∨ 8 ≤ opOf w) →
      (decode p w = .reservedOp (BitVec.ofNat 4 (opOf w)) (coreOf p w) ∨
        decode p w = .reservedRsv (BitVec.ofNat 2 (rsvOf p w)) (BitVec.ofNat 4 (opOf w)) (coreOf p w))) ∧
    (rsvOf p w = 0 →
      (opOf w = 0 → decode p w = .init (coreOf p w)) ∧
      (opOf w = 1 → decode p w = .predict (coreOf p w) (histOf p w) (addrOf p w)) ∧
      (opOf w = 2 → decode p w = .update (coreOf p w) (decide (outcomeOf p w = 1)) (decide (condOf p w = 1)) (histOf p w)
        (addrOf p w)) ∧
      (opOf w = 3 → decode p w = .full (coreOf p w)) ∧
      (opOf w = 4 → decode p w = .timestamp (coreOf p w)) ∧
      (opOf w = 5 → decode p w = .recover (coreOf p w)) ∧
      (opOf w = 6 → decode p w = .specUpdate (coreOf p w)) ∧
      (opOf w = 7 → decode p w = .retire (coreOf p w)))

/-- 40_lookup.md section 2 (R59, "the top `H` bits of the history snapshot"): where the history input is `k` bits wider and the
extra bits stand below, every score, and so every direction and every training step, is the same. -/
def Obligations.WiderHistoryKeepsItsTopBits : Prop :=
  ∀ (histW k theta : Nat) (e : Entry) (hist low : Hist) (outcome : Bool), e.w.length ≤ histW → low < 2 ^ k →
    score (histW + k) e (hist * 2 ^ k + low) = score histW e hist ∧
      train (histW + k) theta e (hist * 2 ^ k + low) outcome = train histW theta e hist outcome

/-- 70_reset_and_hazards.md section 2 (R105) and 60_exceptions.md section 2 (R91): a host that keeps its duties sees no fault. From an
initialised block that meets the invariant, a host that offers only words with `RSV = 0`, an `OP` of 1 to 7 and a `CORE` that exists
gets every one done, in one step each (notes/assumptions 14), without a fault; and from a block that is not initialised, a host that
offers such words after an INIT does. Below a `CID_W` of 8 the fields stand where the model puts them (notes/assumptions 20). -/
def Obligations.DutifulHostMeetsNoFault : Prop :=
  ∀ s : State, s.Inv → s.halted = false →
    ((s.initDone = true → dutiful s.cfg s.host → CompletesWithoutFault s.host.length s) ∧
      ∀ w rest, s.initDone = false → s.host = .cmd w :: rest → opOf w = 0 → rsvOf s.cfg.toPortWidths w = 0 → dutiful s.cfg rest →
        CompletesWithoutFault s.host.length s)
end

