-- ==== Sys2Proof/Laws/State.lean ====
section
/-! SUPPORT. One lemma per field of State for each shared update, so that no later proof unfolds a record update. -/

namespace Sys2Proof.Machine

@[simp] theorem takeEvent_tbl (rest : List HostEvent) (s : State) : (takeEvent rest s).tbl = s.tbl := rfl
@[simp] theorem takeEvent_initDone (rest : List HostEvent) (s : State) : (takeEvent rest s).initDone = s.initDone := rfl
@[simp] theorem takeEvent_halted (rest : List HostEvent) (s : State) : (takeEvent rest s).halted = s.halted := rfl
@[simp] theorem takeEvent_faultCause (rest : List HostEvent) (s : State) : (takeEvent rest s).faultCause = s.faultCause := rfl
@[simp] theorem takeEvent_faultOp (rest : List HostEvent) (s : State) : (takeEvent rest s).faultOp = s.faultOp := rfl
@[simp] theorem takeEvent_faultCore (rest : List HostEvent) (s : State) : (takeEvent rest s).faultCore = s.faultCore := rfl
@[simp] theorem takeEvent_cfg (rest : List HostEvent) (s : State) : (takeEvent rest s).cfg = s.cfg := rfl
@[simp] theorem takeEvent_host (rest : List HostEvent) (s : State) : (takeEvent rest s).host = rest := rfl
@[simp] theorem takeEvent_rsp (rest : List HostEvent) (s : State) : (takeEvent rest s).rsp = none := rfl

@[simp] theorem offerNext_tbl (w : CmdWord) (s : State) : (offerNext w s).tbl = s.tbl := rfl
@[simp] theorem offerNext_initDone (w : CmdWord) (s : State) : (offerNext w s).initDone = s.initDone := rfl
@[simp] theorem offerNext_halted (w : CmdWord) (s : State) : (offerNext w s).halted = s.halted := rfl
@[simp] theorem offerNext_faultCause (w : CmdWord) (s : State) : (offerNext w s).faultCause = s.faultCause := rfl
@[simp] theorem offerNext_faultOp (w : CmdWord) (s : State) : (offerNext w s).faultOp = s.faultOp := rfl
@[simp] theorem offerNext_faultCore (w : CmdWord) (s : State) : (offerNext w s).faultCore = s.faultCore := rfl
@[simp] theorem offerNext_cfg (w : CmdWord) (s : State) : (offerNext w s).cfg = s.cfg := rfl
@[simp] theorem offerNext_host (w : CmdWord) (s : State) : (offerNext w s).host = .cmd w :: s.host := rfl
@[simp] theorem offerNext_rsp (w : CmdWord) (s : State) : (offerNext w s).rsp = s.rsp := rfl

@[simp] theorem respond_tbl (taken full : Bool) (s : State) : (respond taken full s).tbl = s.tbl := rfl
@[simp] theorem respond_initDone (taken full : Bool) (s : State) : (respond taken full s).initDone = s.initDone := rfl
@[simp] theorem respond_halted (taken full : Bool) (s : State) : (respond taken full s).halted = s.halted := rfl
@[simp] theorem respond_faultCause (taken full : Bool) (s : State) : (respond taken full s).faultCause = s.faultCause := rfl
@[simp] theorem respond_faultOp (taken full : Bool) (s : State) : (respond taken full s).faultOp = s.faultOp := rfl
@[simp] theorem respond_faultCore (taken full : Bool) (s : State) : (respond taken full s).faultCore = s.faultCore := rfl
@[simp] theorem respond_cfg (taken full : Bool) (s : State) : (respond taken full s).cfg = s.cfg := rfl
@[simp] theorem respond_host (taken full : Bool) (s : State) : (respond taken full s).host = s.host := rfl
@[simp] theorem respond_rsp (taken full : Bool) (s : State) : (respond taken full s).rsp = some (rspWord taken full 0) := rfl

@[simp] theorem sramWrite_tbl (s : State) (r : Nat) (e : Entry) : (sramWrite s r e).tbl = s.tbl.map fun m => Memory.write (zeroEntry s.cfg.H) m r e := rfl
@[simp] theorem sramWrite_initDone (s : State) (r : Nat) (e : Entry) : (sramWrite s r e).initDone = s.initDone := rfl
@[simp] theorem sramWrite_halted (s : State) (r : Nat) (e : Entry) : (sramWrite s r e).halted = s.halted := rfl
@[simp] theorem sramWrite_faultCause (s : State) (r : Nat) (e : Entry) : (sramWrite s r e).faultCause = s.faultCause := rfl
@[simp] theorem sramWrite_faultOp (s : State) (r : Nat) (e : Entry) : (sramWrite s r e).faultOp = s.faultOp := rfl
@[simp] theorem sramWrite_faultCore (s : State) (r : Nat) (e : Entry) : (sramWrite s r e).faultCore = s.faultCore := rfl
@[simp] theorem sramWrite_cfg (s : State) (r : Nat) (e : Entry) : (sramWrite s r e).cfg = s.cfg := rfl
@[simp] theorem sramWrite_host (s : State) (r : Nat) (e : Entry) : (sramWrite s r e).host = s.host := rfl
@[simp] theorem sramWrite_rsp (s : State) (r : Nat) (e : Entry) : (sramWrite s r e).rsp = s.rsp := rfl

@[simp] theorem zeroTables_tbl (s : State) : (zeroTables s).tbl = some [] := rfl
@[simp] theorem zeroTables_initDone (s : State) : (zeroTables s).initDone = true := rfl
@[simp] theorem zeroTables_halted (s : State) : (zeroTables s).halted = s.halted := rfl
@[simp] theorem zeroTables_faultCause (s : State) : (zeroTables s).faultCause = s.faultCause := rfl
@[simp] theorem zeroTables_faultOp (s : State) : (zeroTables s).faultOp = s.faultOp := rfl
@[simp] theorem zeroTables_faultCore (s : State) : (zeroTables s).faultCore = s.faultCore := rfl
@[simp] theorem zeroTables_cfg (s : State) : (zeroTables s).cfg = s.cfg := rfl
@[simp] theorem zeroTables_host (s : State) : (zeroTables s).host = s.host := rfl
@[simp] theorem zeroTables_rsp (s : State) : (zeroTables s).rsp = s.rsp := rfl

@[simp] theorem raiseFault_tbl (c : FaultCode) (h : Header) (s : State) : (raiseFault c h s).tbl = s.tbl := rfl
@[simp] theorem raiseFault_initDone (c : FaultCode) (h : Header) (s : State) : (raiseFault c h s).initDone = s.initDone := rfl
@[simp] theorem raiseFault_halted (c : FaultCode) (h : Header) (s : State) : (raiseFault c h s).halted = true := rfl
@[simp] theorem raiseFault_faultCause (c : FaultCode) (h : Header) (s : State) : (raiseFault c h s).faultCause = c.code := rfl
@[simp] theorem raiseFault_faultOp (c : FaultCode) (h : Header) (s : State) : (raiseFault c h s).faultOp = h.op := rfl
@[simp] theorem raiseFault_faultCore (c : FaultCode) (h : Header) (s : State) : (raiseFault c h s).faultCore = h.core := rfl
@[simp] theorem raiseFault_cfg (c : FaultCode) (h : Header) (s : State) : (raiseFault c h s).cfg = s.cfg := rfl
@[simp] theorem raiseFault_host (c : FaultCode) (h : Header) (s : State) : (raiseFault c h s).host = s.host := rfl
@[simp] theorem raiseFault_rsp (c : FaultCode) (h : Header) (s : State) : (raiseFault c h s).rsp = some (rspWord false false c.code) := rfl

@[simp] theorem hardReset_tbl (s : State) : (hardReset s).tbl = none := rfl
@[simp] theorem hardReset_initDone (s : State) : (hardReset s).initDone = false := rfl
@[simp] theorem hardReset_halted (s : State) : (hardReset s).halted = false := rfl
@[simp] theorem hardReset_faultCause (s : State) : (hardReset s).faultCause = 0 := rfl
@[simp] theorem hardReset_faultOp (s : State) : (hardReset s).faultOp = 0 := rfl
@[simp] theorem hardReset_faultCore (s : State) : (hardReset s).faultCore = 0 := rfl
@[simp] theorem hardReset_cfg (s : State) : (hardReset s).cfg = s.cfg := rfl
@[simp] theorem hardReset_host (s : State) : (hardReset s).host = s.host := rfl
@[simp] theorem hardReset_rsp (s : State) : (hardReset s).rsp = none := rfl

@[simp] theorem blankEntry_eq (s : State) : blankEntry s = zeroEntry s.cfg.H := rfl

end Sys2Proof.Machine
end

