-- ==== Sys2Proof/Laws/Memory.lean ====
section
/-! SUPPORT. The entry SRAM: what a read gives after a write, and that every operation keeps the canonical form. -/

namespace Sys2Proof.Machine

variable {z : Entry}

@[simp] theorem Memory.read_nil (r : Nat) : Memory.read z [] r = z := rfl

theorem Memory.risingFrom_some_iff (b : Nat) (m : Memory) :
    Memory.risingFrom (some b) m = true ↔ (∀ p ∈ m, b < p.1) ∧ Memory.risingFrom none m = true := by
  induction m generalizing b with
  | nil => simp [Memory.risingFrom]
  | cons p m ih =>
    obtain ⟨k, v⟩ := p
    simp only [Memory.risingFrom, Bool.and_eq_true, decide_eq_true_eq, List.mem_cons, ih k]
    constructor
    · rintro ⟨hb, hk, hr⟩
      refine ⟨?_, hk, hr⟩
      rintro p (rfl | hp)
      · exact hb
      · exact hb.trans (hk p hp)
    · rintro ⟨hall, hk, hr⟩
      exact ⟨hall _ (Or.inl rfl), hk, hr⟩

/-- The canonical form of a memory with a first pair, in terms of the rest. -/
theorem Memory.wf_cons_iff (k : Nat) (v : Entry) (m : Memory) :
    Memory.wf z ((k, v) :: m) = true ↔ v ≠ z ∧ (∀ p ∈ m, k < p.1) ∧ Memory.wf z m = true := by
  simp only [Memory.wf, Bool.and_eq_true, List.all_cons, decide_eq_true_eq]
  rw [show Memory.risingFrom none ((k, v) :: m) = Memory.risingFrom (some k) m from rfl, Memory.risingFrom_some_iff]
  tauto

@[simp] theorem Memory.wf_nil : Memory.wf z [] = true := rfl

/-- A row below every listed one reads as an unlisted row does. -/
theorem Memory.read_of_lt {m : Memory} {r : Nat} (h : ∀ p ∈ m, r < p.1) : Memory.read z m r = z := by
  induction m with
  | nil => rfl
  | cons p m ih =>
    obtain ⟨k, v⟩ := p
    have hk : r < k := h (k, v) (by simp)
    simp only [Memory.read, if_neg (Nat.ne_of_gt hk)]
    exact ih fun q hq => h q (by simp [hq])

/-- A write to one row leaves every other row alone. -/
theorem Memory.read_write_ne {m : Memory} {r r' : Nat} (e : Entry) (h : r' ≠ r) :
    Memory.read z (Memory.write z m r e) r' = Memory.read z m r' := by
  induction m with
  | nil =>
    by_cases he : e = z
    · simp [Memory.write, he]
    · simp [Memory.write, he, Memory.read, Ne.symm h]
  | cons p m ih =>
    obtain ⟨k, v⟩ := p
    simp only [Memory.write]
    split
    · by_cases he : e = z <;> simp [he, Memory.read, Ne.symm h]
    · split
      · subst r
        by_cases he : e = z <;> simp [he, Memory.read, Ne.symm h]
      · simp [Memory.read, ih]

/-- A read of the row just written gives what was written. -/
theorem Memory.read_write_self {m : Memory} {r : Nat} (e : Entry) (hm : Memory.wf z m = true) :
    Memory.read z (Memory.write z m r e) r = e := by
  induction m with
  | nil =>
    by_cases he : e = z
    · simp [Memory.write, he]
    · simp [Memory.write, he, Memory.read]
  | cons p m ih =>
    obtain ⟨k, v⟩ := p
    obtain ⟨-, hk, hm⟩ := (Memory.wf_cons_iff k v m).1 hm
    simp only [Memory.write]
    split
    · rename_i hr
      by_cases he : e = z
      · subst he
        simp only [if_true]
        refine Memory.read_of_lt fun q hq => ?_
        rcases List.mem_cons.1 hq with rfl | hq
        · exact hr
        · exact hr.trans (hk q hq)
      · simp [he, Memory.read]
    · split
      · subst r
        by_cases he : e = z
        · subst he
          simpa using Memory.read_of_lt hk
        · simp [he, Memory.read]
      · rename_i h1 h2
        simp [Memory.read, Ne.symm h2, ih hm]

/-- What a write lists was listed before, or is the pair written. -/
theorem Memory.mem_write {m : Memory} {r : Nat} {e : Entry} {p : Nat × Entry} (h : p ∈ Memory.write z m r e) :
    p ∈ m ∨ p = (r, e) := by
  induction m with
  | nil =>
    simp only [Memory.write] at h
    split at h <;> simp_all
  | cons q m ih =>
    obtain ⟨k, v⟩ := q
    simp only [Memory.write] at h
    split at h
    · split at h <;> simp only [List.mem_cons] at h ⊢ <;> tauto
    · split at h
      · split at h <;> simp only [List.mem_cons] at h ⊢ <;> tauto
      · simp only [List.mem_cons] at h ⊢
        rcases h with h | h
        · exact Or.inl (Or.inl h)
        · rcases ih h with h | h <;> tauto

/-- A write keeps the canonical form. -/
theorem Memory.wf_write {m : Memory} (r : Nat) (e : Entry) (hm : Memory.wf z m = true) :
    Memory.wf z (Memory.write z m r e) = true := by
  induction m with
  | nil =>
    simp only [Memory.write]
    split
    · rfl
    · rename_i he
      exact (Memory.wf_cons_iff r e []).2 ⟨he, by simp, rfl⟩
  | cons p m ih =>
    obtain ⟨k, v⟩ := p
    obtain ⟨hv, hk, hm'⟩ := (Memory.wf_cons_iff k v m).1 hm
    simp only [Memory.write]
    split
    · rename_i hr
      split
      · exact hm
      · rename_i he
        refine (Memory.wf_cons_iff r e _).2 ⟨he, ?_, hm⟩
        intro q hq
        rcases List.mem_cons.1 hq with rfl | hq
        · exact hr
        · exact hr.trans (hk q hq)
    · split
      · subst r
        split
        · exact hm'
        · rename_i he
          exact (Memory.wf_cons_iff k e m).2 ⟨he, hk, hm'⟩
      · rename_i h1 h2
        refine (Memory.wf_cons_iff k v _).2 ⟨hv, ?_, ih hm'⟩
        intro q hq
        rcases Memory.mem_write hq with hq | rfl
        · exact hk q hq
        · simp only
          omega

/-- Equal memories are equal lists: two canonical memories whose every row reads the same are the same. -/
theorem Memory.ext_of_read {m m' : Memory} (hm : Memory.wf z m = true) (hm' : Memory.wf z m' = true)
    (h : ∀ r, Memory.read z m r = Memory.read z m' r) : m = m' := by
  induction m generalizing m' with
  | nil =>
    cases m' with
    | nil => rfl
    | cons p m' =>
      obtain ⟨k, v⟩ := p
      have := h k
      simp only [Memory.read, if_true] at this
      exact absurd this.symm ((Memory.wf_cons_iff k v m').1 hm').1
  | cons p m ih =>
    obtain ⟨k, v⟩ := p
    obtain ⟨hv, hk, hm⟩ := (Memory.wf_cons_iff k v m).1 hm
    cases m' with
    | nil =>
      have := h k
      simp only [Memory.read, if_true] at this
      exact absurd this hv
    | cons q m' =>
      obtain ⟨k', v'⟩ := q
      obtain ⟨hv', hk', hw'⟩ := (Memory.wf_cons_iff k' v' m').1 hm'
      have hkk : k = k' := by
        rcases Nat.lt_trichotomy k k' with hlt | heq | hgt
        · have := h k
          simp only [Memory.read, if_true, if_neg (Nat.ne_of_gt hlt)] at this
          exact absurd (this.trans (Memory.read_of_lt fun q hq => hlt.trans (hk' q hq))) hv
        · exact heq
        · have := h k'
          simp only [Memory.read, if_true, if_neg (Nat.ne_of_gt hgt)] at this
          exact absurd (this.symm.trans (Memory.read_of_lt fun q hq => hgt.trans (hk q hq))) hv'
      subst hkk
      have hvv : v = v' := by simpa [Memory.read] using h k
      subst hvv
      refine congrArg _ (ih hm hw' fun r => ?_)
      by_cases hr : k = r
      · subst hr
        rw [Memory.read_of_lt hk, Memory.read_of_lt hk']
      · simpa [Memory.read, hr] using h r

/-- Writing a row what it holds changes nothing. -/
theorem Memory.write_read_self {m : Memory} (r : Nat) (hm : Memory.wf z m = true) :
    Memory.write z m r (Memory.read z m r) = m := by
  refine Memory.ext_of_read (Memory.wf_write _ _ hm) hm fun r' => ?_
  by_cases h : r' = r
  · rw [h, Memory.read_write_self _ hm]
  · rw [Memory.read_write_ne _ h]

/-- Every Entry a read gives is a listed one or the unlisted rows' Entry. -/
theorem Memory.read_mem_or (m : Memory) (r : Nat) :
    Memory.read z m r = z ∨ (r, Memory.read z m r) ∈ m := by
  induction m with
  | nil => exact Or.inl rfl
  | cons p m ih =>
    obtain ⟨k, v⟩ := p
    by_cases h : k = r
    · subst h
      exact Or.inr (by simp [Memory.read])
    · simp only [Memory.read, if_neg h, List.mem_cons]
      rcases ih with h' | h'
      · exact Or.inl h'
      · exact Or.inr (Or.inr h')

/-- Rows of different cores are different (20_memory.md R30). -/
theorem rowOf_ne {H c c' j j' : Nat} (hj : j < 2 ^ H) (hj' : j' < 2 ^ H) (hc : c ≠ c') : rowOf H c j ≠ rowOf H c' j' := by
  intro h
  simp only [rowOf] at h
  have h1 : (c * 2 ^ H + j) / 2 ^ H = c := by
    rw [Nat.mul_comm, Nat.mul_add_div (Nat.two_pow_pos H), Nat.div_eq_of_lt hj, Nat.add_zero]
  have h2 : (c' * 2 ^ H + j') / 2 ^ H = c' := by
    rw [Nat.mul_comm, Nat.mul_add_div (Nat.two_pow_pos H), Nat.div_eq_of_lt hj', Nat.add_zero]
  exact hc (by rw [← h1, h, h2])

/-- The row of a core that exists is a row of the SRAM (R30, R37). -/
theorem rowOf_lt {H n c j : Nat} (hc : c < n) (hj : j < 2 ^ H) : rowOf H c j < n * 2 ^ H := by
  have : (c + 1) * 2 ^ H ≤ n * 2 ^ H := Nat.mul_le_mul_right _ hc
  rw [Nat.add_mul] at this
  simp only [rowOf]
  omega

@[simp] theorem sramRead_some {s : State} {m : Memory} (h : s.tbl = some m) (r : Nat) :
    sramRead s r = some (Memory.read (zeroEntry s.cfg.H) m r) := by simp [sramRead, h]

theorem sramRead_congr {s t : State} (htbl : t.tbl = s.tbl) (hcfg : t.cfg = s.cfg) (r : Nat) :
    sramRead t r = sramRead s r := by simp [sramRead, blankEntry, htbl, hcfg]

/-- After INIT every row reads as the zero Entry (42_lifecycle.md R79). -/
theorem sramRead_zeroTables (s : State) (r : Nat) : sramRead (zeroTables s) r = some (zeroEntry s.cfg.H) := rfl

end Sys2Proof.Machine
end

