-- ==== Sys2Proof/Laws/Datapath.lean ====
section
/-! SUPPORT. What the datapath's functions give: the indexer's range, the signs, the clamp's range, and that training keeps an
Entry's shape and range. -/

namespace Sys2Proof.Machine

/-- The indexer as division and remainder (40_lookup.md R57: `addr[H+1:2]`). -/
theorem index_eq (H : Nat) (addr : Addr) : index H addr = addr / 4 % 2 ^ H := by
  simp [index, Nat.and_two_pow_sub_one_eq_mod, Nat.shiftRight_eq_div_pow]

/-- "No bounds failure is possible" (R57). -/
theorem index_lt (H : Nat) (addr : Addr) : index H addr < 2 ^ H := by
  rw [index_eq]
  exact Nat.mod_lt _ (Nat.two_pow_pos H)

/-- Bit `k` of the slot is bit `k + 2` of the address, for `k < H` (R57). -/
theorem testBit_index (H : Nat) (addr : Addr) (k : Nat) :
    (index H addr).testBit k = (decide (k < H) && addr.testBit (k + 2)) := by
  rw [index_eq, Nat.testBit_mod_two_pow, show (4 : Nat) = 2 ^ 2 from rfl, Nat.testBit_div_two_pow]

theorem histSign_eq_or (histW : Nat) (hist : Hist) (i : Nat) : histSign histW hist i = 1 ∨ histSign histW hist i = -1 := by
  unfold histSign
  split
  · exact Or.inl rfl
  · exact Or.inr rfl

theorem target_eq_or (outcome : Bool) : target outcome = 1 ∨ target outcome = -1 := by
  cases outcome
  · exact Or.inr rfl
  · exact Or.inl rfl

@[simp] theorem products_length (histW : Nat) (e : Entry) (hist : Hist) : (products histW e hist).length = e.w.length := by simp [products]

/-- The clamp's range (41_training.md R68). -/
theorem saturate_mem (v : Int) : -128 ≤ saturate v ∧ saturate v ≤ 127 := by
  unfold saturate
  split
  · omega
  · split <;> omega

theorem saturate_of_mem {v : Int} (h1 : -128 ≤ v) (h2 : v ≤ 127) : saturate v = v := by
  unfold saturate
  rw [if_neg (by omega), if_neg (by omega)]

/-- The comparison that opens the gate (R71). -/
theorem gate_eq_true_iff {theta : Nat} {s : Int} {outcome : Bool} :
    gate theta s outcome = true ↔ direction s ≠ outcome ∨ s.natAbs < theta := by simp [gate]

theorem direction_eq_true_iff {s : Int} : direction s = true ↔ 0 ≤ s := by simp [direction]

theorem direction_eq_false_iff {s : Int} : direction s = false ↔ s < 0 := by simp [direction]

/-- A closed gate leaves the Entry as it is (R73). -/
theorem train_of_closed {histW theta : Nat} {e : Entry} {hist : Hist} {outcome : Bool}
    (h : gate theta (score histW e hist) outcome = false) : train histW theta e hist outcome = e := by simp [train, h]

theorem train_bias_of_open {histW theta : Nat} {e : Entry} {hist : Hist} {outcome : Bool}
    (h : gate theta (score histW e hist) outcome = true) :
    (train histW theta e hist outcome).bias = saturate (e.bias + target outcome) := by simp [train, h]

theorem train_w_of_open {histW theta : Nat} {e : Entry} {hist : Hist} {outcome : Bool}
    (h : gate theta (score histW e hist) outcome = true) :
    (train histW theta e hist outcome).w = e.w.zipIdx.map fun p => saturate (p.1 + histSign histW hist p.2 * target outcome) := by
  simp [train, h]

@[simp] theorem train_w_length (histW theta : Nat) (e : Entry) (hist : Hist) (outcome : Bool) :
    (train histW theta e hist outcome).w.length = e.w.length := by
  unfold train
  split <;> simp

/-- What an Entry that fits is. -/
theorem Entry.fits_iff {H : Nat} {e : Entry} :
    e.fits H = true ↔ e.w.length = H ∧ (-128 ≤ e.bias ∧ e.bias ≤ 127) ∧ ∀ v ∈ e.w, -128 ≤ v ∧ v ≤ 127 := by
  simp [Entry.fits, inRange8]

/-- Training keeps an Entry's shape and range (R69, R76). -/
theorem train_fits {H histW theta : Nat} {e : Entry} {hist : Hist} {outcome : Bool} (h : e.fits H = true) :
    (train histW theta e hist outcome).fits H = true := by
  cases hg : gate theta (score histW e hist) outcome with
  | false => rwa [train_of_closed hg]
  | true =>
    rw [Entry.fits_iff] at h ⊢
    refine ⟨by simpa using h.1, ?_, ?_⟩
    · rw [train_bias_of_open hg]
      exact saturate_mem _
    · rw [train_w_of_open hg]
      intro v hv
      obtain ⟨p, -, rfl⟩ := List.mem_map.1 hv
      exact saturate_mem _

theorem zeroEntry_fits (H : Nat) : (zeroEntry H).fits H = true := by
  rw [Entry.fits_iff]
  refine ⟨by simp [zeroEntry], by simp [zeroEntry], ?_⟩
  intro v hv
  have : v = 0 := List.eq_of_mem_replicate hv
  omega

/-- A zero Entry scores 0 under every history (40_lookup.md R65). -/
theorem score_zeroEntry (histW H : Nat) (hist : Hist) : score histW (zeroEntry H) hist = 0 := by
  have h : ∀ n k : Nat, (((List.replicate n (0 : Int)).zipIdx k).map fun p => p.1 * histSign histW hist p.2).sum = 0 := by
    intro n
    induction n with
    | zero => simp
    | succ n ih =>
      intro k
      simp [List.replicate_succ, List.zipIdx_cons, ih]
  simpa [score, products, zeroEntry] using h H 0

theorem sum_products_from (l : List Int) (histW : Nat) (hist : Hist) (n : Nat) :
    ((l.zipIdx n).map fun p => p.1 * histSign histW hist p.2).sum =
      ∑ i ∈ Finset.range l.length, l.getD i 0 * histSign histW hist (n + i) := by
  induction l generalizing n with
  | nil => simp
  | cons v l ih =>
    rw [List.zipIdx_cons, List.map_cons, List.sum_cons, ih, List.length_cons, Finset.sum_range_succ']
    simp only [List.getD_cons_succ, List.getD_cons_zero, Nat.add_zero]
    rw [add_comm]
    congr 1
    exact Finset.sum_congr rfl fun i _ => by rw [Nat.add_assoc, Nat.add_comm 1]

/-- The score as a sum over weight indexes (40_lookup.md R61). -/
theorem score_eq_sum (histW : Nat) (e : Entry) (hist : Hist) :
    score histW e hist = e.bias + ∑ i ∈ Finset.range e.w.length, e.w.getD i 0 * histSign histW hist i := by
  rw [score, products, sum_products_from]
  simp

/-- Weight `i` after a training step (41_training.md R73). -/
theorem train_getD_of_open {histW theta : Nat} {e : Entry} {hist : Hist} {outcome : Bool}
    (h : gate theta (score histW e hist) outcome = true) {i : Nat} (hi : i < e.w.length) :
    (train histW theta e hist outcome).w.getD i 0 = saturate (e.w.getD i 0 + histSign histW hist i * target outcome) := by
  rw [train_w_of_open h]
  simp [hi]

/-- Each product of an Entry that fits lies in [-128, 128] (40_lookup.md R62). -/
theorem products_mem {H histW : Nat} {e : Entry} {hist : Hist} (h : e.fits H = true) :
    ∀ p ∈ products histW e hist, -128 ≤ p ∧ p ≤ 128 := by
  intro p hp
  obtain ⟨q, hq, rfl⟩ := List.mem_map.1 hp
  have := (Entry.fits_iff.1 h).2.2 q.1 (List.fst_mem_of_mem_zipIdx hq)
  rcases histSign_eq_or histW hist q.2 with h | h <;> rw [h] <;> omega

/-- A sum of numbers in [-128, 128]. -/
theorem sum_mem {l : List Int} (h : ∀ p ∈ l, -128 ≤ p ∧ p ≤ 128) :
    -128 * (l.length : Int) ≤ l.sum ∧ l.sum ≤ 128 * (l.length : Int) := by
  induction l with
  | nil => simp
  | cons v l ih =>
    have h1 := h v (by simp)
    have h2 := ih fun p hp => h p (by simp [hp])
    simp only [List.sum_cons, List.length_cons]
    push_cast
    constructor <;> linarith [h1.1, h1.2, h2.1, h2.2]

/-- The accumulator wraps only once, at its width (40_lookup.md R63). -/
theorem accumulate_eq (n histW : Nat) (e : Entry) (hist : Hist) : accumulate n histW e hist = BitVec.ofInt n (score histW e hist) := by
  have h : ∀ (l : List Int) (b : Int),
      l.foldl (fun acc p => acc + BitVec.ofInt n p) (BitVec.ofInt n b) = BitVec.ofInt n (b + l.sum) := by
    intro l
    induction l with
    | nil => simp
    | cons v l ih =>
      intro b
      rw [List.foldl_cons, ← BitVec.ofInt_add, ih, List.sum_cons, add_assoc]
  exact h _ _

/-- `ceil(log2 n)` is Mathlib's (40_lookup.md R63). -/
theorem ceilLog2_eq_clog {n : Nat} (h : 1 ≤ n) : ceilLog2 n = Nat.clog 2 n := by
  unfold ceilLog2
  split
  · have h1 : n = 1 := by omega
    simp [h1]
  · rw [Nat.log2_eq_log_two]
    apply le_antisymm
    · have h1 : Nat.log 2 (n - 1) < Nat.clog 2 n := by
        apply Nat.log_lt_of_lt_pow (by omega)
        have := Nat.le_pow_clog (b := 2) (by norm_num) n
        omega
      omega
    · rw [Nat.clog_le_iff_le_pow (by norm_num)]
      have := Nat.lt_pow_succ_log_self (b := 2) (by norm_num) (n - 1)
      omega

/-- What tables that are in order are. -/
theorem tablesOk_iff {cfg : Config} {m : Memory} :
    tablesOk cfg m = true ↔ Memory.wf (zeroEntry cfg.H) m = true ∧
      ∀ p ∈ m, p.1 < cfg.numCores * 2 ^ cfg.H ∧ p.2.fits cfg.H = true := by
  simp only [tablesOk, Bool.and_eq_true, List.all_eq_true, decide_eq_true_eq]

theorem tablesOk_nil (cfg : Config) : tablesOk cfg [] = true := rfl

/-- Every Entry read from tables in order fits. -/
theorem read_fits {cfg : Config} {m : Memory} (h : tablesOk cfg m = true) (r : Nat) :
    (Memory.read (zeroEntry cfg.H) m r).fits cfg.H = true := by
  rcases Memory.read_mem_or (z := zeroEntry cfg.H) m r with h' | h'
  · rw [h']
    exact zeroEntry_fits _
  · exact ((tablesOk_iff.1 h).2 _ h').2

/-- Writing an Entry that fits to a row that exists keeps tables in order. -/
theorem tablesOk_write {cfg : Config} {m : Memory} {r : Nat} {e : Entry} (h : tablesOk cfg m = true)
    (hr : r < cfg.numCores * 2 ^ cfg.H) (he : e.fits cfg.H = true) :
    tablesOk cfg (Memory.write (zeroEntry cfg.H) m r e) = true := by
  obtain ⟨h1, h2⟩ := tablesOk_iff.1 h
  refine tablesOk_iff.2 ⟨Memory.wf_write r e h1, fun p hp => ?_⟩
  rcases Memory.mem_write hp with hp | rfl
  · exact h2 p hp
  · exact ⟨hr, he⟩

end Sys2Proof.Machine
end

