-- ==== Sys2Proof/Laws/Ops.lean ====
section
/-! SUPPORT. Everything `precheck` and a command can do, said once. -/

namespace Sys2Proof.Machine

/-- What a command does once `precheck` has passed. -/
def effectOf : Instr → State → Host.Outcome State Fault Refusal
  | .init _, s => .next (respond false false (zeroTables s))
  | .predict core hist addr, s =>
    match sramRead s (commandRow s.cfg core addr) with
    | some e => .next (respond (direction (score s.cfg.histW e hist)) false s)
    | none => .fault .tablesAbsent
  | .update core outcome cond hist addr, s =>
    if cond then
      match sramRead s (commandRow s.cfg core addr) with
      | some e =>
        .next (respond false false (sramWrite s (commandRow s.cfg core addr) (train s.cfg.histW s.cfg.theta e hist outcome)))
      | none => .fault .tablesAbsent
    else answerZero s
  | _, s => answerZero s

theorem precheck_of_rsv {h : Header} (s : State) (hr : h.rsv ≠ 0) : precheck h s = some .illegalCmd :=
  if_pos (Or.inl hr)

theorem precheck_of_op {h : Header} (s : State) (ho : 8 ≤ h.op.toNat) : precheck h s = some .illegalCmd :=
  if_pos (Or.inr ho)

/-- `precheck` of INIT (R91). -/
theorem precheck_init (core : CoreId) (s : State) :
    precheck (headerOf (.init core)) s = if s.initDone then some .reinit else none := by simp [precheck, headerOf]

/-- `precheck` of a command that carries a core (R91). -/
theorem precheck_core {op : BitVec 4} (core : CoreId) (s : State) (h0 : op ≠ 0) (h8 : op.toNat < 8) :
    precheck ⟨op, 0, core⟩ s =
      if s.initDone = false then some .notInit
      else if s.cfg.numCores ≤ core then some .coreRange else none := by
  unfold precheck
  rw [if_neg (by simpa using h8), if_neg h0]

/-- Every instruction of an opcode-table row is `precheck`, then its own effect (R91). -/
theorem exec_eq_runCommand {i : Instr} (hi : i.inRow = true) (s : State) :
    exec i s = runCommand (headerOf i) s (effectOf i) := by
  cases i with
  | reservedOp op core =>
    have h : 8 ≤ op.toNat := by simpa [Instr.inRow] using hi
    simp only [exec, execReservedOp, runCommand, headerOf, precheck_of_op (h := ⟨op, 0, core⟩) s h]
  | reservedRsv rsv op core =>
    have h : rsv ≠ 0 := of_decide_eq_true hi
    simp only [exec, execReservedRsv, runCommand, headerOf, precheck_of_rsv (h := ⟨op, rsv, core⟩) s h]
  | init core => rfl
  | predict core hist addr => rfl
  | update core outcome cond hist addr => rfl
  | full core => rfl
  | timestamp core => rfl
  | recover core => rfl
  | specUpdate core => rfl
  | retire core => rfl

/-- A command that faults does nothing but raise its fault (R92). -/
theorem exec_of_fault {i : Instr} {s : State} {c : FaultCode} (hi : i.inRow = true)
    (h : precheck (headerOf i) s = some c) : exec i s = .next (raiseFault c (headerOf i) s) := by
  rw [exec_eq_runCommand hi, runCommand, h]

/-- A command that passes `precheck` has its own effect. -/
theorem exec_of_pass {i : Instr} {s : State} (hi : i.inRow = true) (h : precheck (headerOf i) s = none) :
    exec i s = effectOf i s := by rw [exec_eq_runCommand hi, runCommand, h]

/-- `precheck` of a command that carries a core, by the command. -/
theorem precheck_of_carriesCore {i : Instr} (hi : carriesCore i = true) (s : State) :
    precheck (headerOf i) s =
      if s.initDone = false then some .notInit
      else if s.cfg.numCores ≤ (headerOf i).core then some .coreRange else none := by
  cases i with
  | init core => cases hi
  | reservedOp op core => cases hi
  | reservedRsv rsv op core => cases hi
  | predict core hist addr => exact precheck_core core s (by decide) (by decide)
  | update core outcome cond hist addr => exact precheck_core core s (by decide) (by decide)
  | full core => exact precheck_core core s (by decide) (by decide)
  | timestamp core => exact precheck_core core s (by decide) (by decide)
  | recover core => exact precheck_core core s (by decide) (by decide)
  | specUpdate core => exact precheck_core core s (by decide) (by decide)
  | retire core => exact precheck_core core s (by decide) (by decide)

theorem inRow_of_carriesCore {i : Instr} (hi : carriesCore i = true) : i.inRow = true := by
  cases i <;> first | rfl | cases hi

/-- A command that carries a core that exists has its own effect once the block is initialised. -/
theorem exec_of_ready {i : Instr} {s : State} (hi : carriesCore i = true) (hinit : s.initDone = true)
    (hcore : (headerOf i).core < s.cfg.numCores) : exec i s = effectOf i s := by
  refine exec_of_pass (inRow_of_carriesCore hi) ?_
  rw [precheck_of_carriesCore hi, if_neg (by simp [hinit]), if_neg (Nat.not_le.2 hcore)]

/-- All that an instruction's next state can be: a fault's entry, INIT's, PREDICT's, UPDATE's, or a response of 0 alone. -/
theorem exec_next_cases {i : Instr} {s t : State} (hi : i.inRow = true) (h : exec i s = .next t) :
    (∃ c, precheck (headerOf i) s = some c ∧ t = raiseFault c (headerOf i) s) ∨
    (precheck (headerOf i) s = none ∧
      ((∃ core, i = .init core ∧ t = respond false false (zeroTables s)) ∨
       (∃ core hist addr e, i = .predict core hist addr ∧ sramRead s (commandRow s.cfg core addr) = some e ∧
          t = respond (direction (score s.cfg.histW e hist)) false s) ∨
       (∃ core outcome hist addr e, i = .update core outcome true hist addr ∧
          sramRead s (commandRow s.cfg core addr) = some e ∧
          t = respond false false (sramWrite s (commandRow s.cfg core addr) (train s.cfg.histW s.cfg.theta e hist outcome))) ∨
       (carriesCore i = true ∧ (∀ core hist addr, i ≠ .predict core hist addr) ∧
          (∀ core outcome hist addr, i ≠ .update core outcome true hist addr) ∧ t = respond false false s))) := by
  cases hp : precheck (headerOf i) s with
  | some c =>
    rw [exec_of_fault hi hp] at h
    exact Or.inl ⟨c, rfl, by simpa using h.symm⟩
  | none =>
    refine Or.inr ⟨rfl, ?_⟩
    rw [exec_of_pass hi hp] at h
    cases i with
    | init core => exact Or.inl ⟨core, rfl, by simpa [effectOf] using h.symm⟩
    | predict core hist addr =>
      simp only [effectOf] at h
      split at h
      · rename_i e he
        exact Or.inr (Or.inl ⟨core, hist, addr, e, rfl, he, by simpa using h.symm⟩)
      · cases h
    | update core outcome cond hist addr =>
      cases cond with
      | true =>
        simp only [effectOf, if_true] at h
        split at h
        · rename_i e he
          exact Or.inr (Or.inr (Or.inl ⟨core, outcome, hist, addr, e, rfl, he, by simpa using h.symm⟩))
        · cases h
      | false =>
        refine Or.inr (Or.inr (Or.inr ⟨rfl, by simp, by simp, ?_⟩))
        simpa [effectOf, answerZero] using h.symm
    | full core => exact Or.inr (Or.inr (Or.inr ⟨rfl, by simp, by simp, by simpa [effectOf, answerZero] using h.symm⟩))
    | timestamp core => exact Or.inr (Or.inr (Or.inr ⟨rfl, by simp, by simp, by simpa [effectOf, answerZero] using h.symm⟩))
    | recover core => exact Or.inr (Or.inr (Or.inr ⟨rfl, by simp, by simp, by simpa [effectOf, answerZero] using h.symm⟩))
    | specUpdate core => exact Or.inr (Or.inr (Or.inr ⟨rfl, by simp, by simp, by simpa [effectOf, answerZero] using h.symm⟩))
    | retire core => exact Or.inr (Or.inr (Or.inr ⟨rfl, by simp, by simp, by simpa [effectOf, answerZero] using h.symm⟩))
    | reservedOp op core =>
      have h8 : 8 ≤ op.toNat := by simpa [Instr.inRow] using hi
      rw [show headerOf (.reservedOp op core) = ⟨op, 0, core⟩ from rfl,
        precheck_of_op (h := ⟨op, 0, core⟩) s h8] at hp
      cases hp
    | reservedRsv rsv op core =>
      have hr : rsv ≠ 0 := of_decide_eq_true hi
      rw [show headerOf (.reservedRsv rsv op core) = ⟨op, rsv, core⟩ from rfl,
        precheck_of_rsv (h := ⟨op, rsv, core⟩) s hr] at hp
      cases hp

/-- A command that passes `precheck` and carries a core found the block initialised and its core in range. -/
theorem ready_of_pass {i : Instr} {s : State} (hi : carriesCore i = true) (h : precheck (headerOf i) s = none) :
    s.initDone = true ∧ (headerOf i).core < s.cfg.numCores := by
  rw [precheck_of_carriesCore hi] at h
  split at h
  · cases h
  · rename_i h1
    split at h
    · cases h
    · rename_i h2
      exact ⟨by simpa using h1, Nat.not_le.1 h2⟩

/-- No instruction is refused. -/
theorem exec_ne_refused (i : Instr) (s : State) (r : Refusal) : exec i s ≠ .refused r := by
  have hrun : ∀ (h : Header) (body : State → Host.Outcome State Fault Refusal), body s ≠ .refused r →
      runCommand h s body ≠ .refused r := by
    intro h body hb
    unfold runCommand
    split
    · simp
    · exact hb
  have hzero : answerZero s ≠ .refused r := by simp [answerZero]
  cases i with
  | init core => exact hrun ⟨0x0, 0, core⟩ (effectOf (.init core)) (by simp [effectOf])
  | predict core hist addr =>
    refine hrun ⟨0x1, 0, core⟩ (effectOf (.predict core hist addr)) ?_
    simp only [effectOf]
    split <;> simp
  | update core outcome cond hist addr =>
    refine hrun ⟨0x2, 0, core⟩ (effectOf (.update core outcome cond hist addr)) ?_
    simp only [effectOf]
    split
    · split <;> simp
    · exact hzero
  | full core => exact hrun ⟨0x3, 0, core⟩ _ hzero
  | timestamp core => exact hrun ⟨0x4, 0, core⟩ _ hzero
  | recover core => exact hrun ⟨0x5, 0, core⟩ _ hzero
  | specUpdate core => exact hrun ⟨0x6, 0, core⟩ _ hzero
  | retire core => exact hrun ⟨0x7, 0, core⟩ _ hzero
  | reservedOp op core => simp [exec, execReservedOp]
  | reservedRsv rsv op core => simp [exec, execReservedRsv]

/-- An instruction of a row answers a next state with one response, and takes no event of the host, wherever the tables are
present exactly when the block is initialised. -/
theorem exec_answers {i : Instr} {s : State} (hi : i.inRow = true) (htbl : s.tbl.isSome = s.initDone) :
    ∃ t v, exec i s = .next t ∧ t.rsp = some v ∧ t.host = s.host := by
  cases hp : precheck (headerOf i) s with
  | some c => exact ⟨_, _, exec_of_fault hi hp, rfl, rfl⟩
  | none =>
    rw [exec_of_pass hi hp]
    have present : carriesCore i = true → ∃ m, s.tbl = some m := fun hc =>
      Option.isSome_iff_exists.1 (htbl.trans (ready_of_pass hc hp).1)
    cases i with
    | predict core hist addr =>
      obtain ⟨m, hm⟩ := present rfl
      simp only [effectOf, sramRead, hm, Option.map_some]
      exact ⟨_, _, rfl, rfl, rfl⟩
    | update core outcome cond hist addr =>
      obtain ⟨m, hm⟩ := present rfl
      cases cond with
      | true =>
        simp only [effectOf, sramRead, hm, Option.map_some, if_true]
        exact ⟨_, _, rfl, rfl, rfl⟩
      | false => exact ⟨_, _, rfl, rfl, rfl⟩
    | init core => exact ⟨_, _, rfl, rfl, rfl⟩
    | full core => exact ⟨_, _, rfl, rfl, rfl⟩
    | timestamp core => exact ⟨_, _, rfl, rfl, rfl⟩
    | recover core => exact ⟨_, _, rfl, rfl, rfl⟩
    | specUpdate core => exact ⟨_, _, rfl, rfl, rfl⟩
    | retire core => exact ⟨_, _, rfl, rfl, rfl⟩
    | reservedOp op core => exact ⟨_, _, rfl, rfl, rfl⟩
    | reservedRsv rsv op core => exact ⟨_, _, rfl, rfl, rfl⟩

end Sys2Proof.Machine
end

