-- ==== Sys2Proof/Laws/Cores.lean ====
section
/-! SUPPORT. What a command that carries a core does to its table, said once for all seven: it reads one Entry of its own core,
writes that row, and answers from that Entry (20_memory.md R34; 10_state.md R17). -/

namespace Sys2Proof.Machine

/-- A command that carries a core is a read-modify-write of one row of that core's table (the identity for all but UPDATE with
`COND = 1`), with a response computed from the Entry read: the row's slot, the new Entry and the response depend on the command and
the parameters only. -/
theorem exec_carriesCore {i : Instr} (hi : carriesCore i = true) (cfg : Config)
    (hcore : (headerOf i).core < cfg.numCores) :
    ∃ (j : Nat) (f : Entry → Entry) (g : Entry → RspWord), j < 2 ^ cfg.H ∧
      ∀ (s : State) (m : Memory), s.initDone = true → s.cfg = cfg → s.tbl = some m → Memory.wf (zeroEntry cfg.H) m = true →
        exec i s = .next { s with
          tbl := some (Memory.write (zeroEntry cfg.H) m (rowOf cfg.H (headerOf i).core j)
            (f (Memory.read (zeroEntry cfg.H) m (rowOf cfg.H (headerOf i).core j))))
          rsp := some (g (Memory.read (zeroEntry cfg.H) m (rowOf cfg.H (headerOf i).core j))) } := by
  have noop : (∀ s, effectOf i s = answerZero s) → ∃ (j : Nat) (f : Entry → Entry) (g : Entry → RspWord), j < 2 ^ cfg.H ∧
      ∀ (s : State) (m : Memory), s.initDone = true → s.cfg = cfg → s.tbl = some m → Memory.wf (zeroEntry cfg.H) m = true →
        exec i s = .next { s with
          tbl := some (Memory.write (zeroEntry cfg.H) m (rowOf cfg.H (headerOf i).core j)
            (f (Memory.read (zeroEntry cfg.H) m (rowOf cfg.H (headerOf i).core j))))
          rsp := some (g (Memory.read (zeroEntry cfg.H) m (rowOf cfg.H (headerOf i).core j))) } := by
    intro heff
    refine ⟨0, id, fun _ => rspWord false false 0, Nat.two_pow_pos _, ?_⟩
    rintro s m hinit rfl hm hw
    rw [exec_of_ready hi hinit hcore, heff, id, Memory.write_read_self _ hw, ← hm]
    rfl
  cases i with
  | init core => cases hi
  | reservedOp op core => cases hi
  | reservedRsv rsv op core => cases hi
  | predict core hist addr =>
    refine ⟨index cfg.H addr, id, fun e => rspWord (direction (score cfg.histW e hist)) false 0, index_lt _ _, ?_⟩
    rintro s m hinit rfl hm hw
    rw [exec_of_ready hi hinit hcore]
    simp only [effectOf, sramRead_some hm, id, Memory.write_read_self _ hw, ← hm]
    rfl
  | update core outcome cond hist addr =>
    cases cond with
    | false => exact noop fun _ => rfl
    | true =>
      refine ⟨index cfg.H addr, fun e => train cfg.histW cfg.theta e hist outcome, fun _ => rspWord false false 0, index_lt _ _, ?_⟩
      rintro s m hinit rfl hm hw
      rw [exec_of_ready hi hinit hcore]
      simp only [effectOf, sramRead_some hm, if_true, sramWrite, respond, hm, blankEntry, Option.map_some, commandRow, headerOf]
  | full core => exact noop fun _ => rfl
  | timestamp core => exact noop fun _ => rfl
  | recover core => exact noop fun _ => rfl
  | specUpdate core => exact noop fun _ => rfl
  | retire core => exact noop fun _ => rfl

end Sys2Proof.Machine
end

