-- ==== Sys2Proof/Laws/Decode.lean ====
section
/-! SUPPORT. The fields of a packed word, and the header and the well-formedness of a decoded one. -/

namespace Sys2Proof

/-- A field by division and remainder (00_scope.md R10). -/
theorem fieldAt_eq (w : CmdWord) (lo n : Nat) : fieldAt w lo n = w / 2 ^ lo % 2 ^ n := by
  rw [fieldAt, Nat.shiftRight_eq_div_pow]

theorem fieldAt_lt (w : CmdWord) (lo n : Nat) : fieldAt w lo n < 2 ^ n := Nat.mod_lt _ (Nat.two_pow_pos n)

theorem testBit_eq (w : CmdWord) (k : Nat) : w.testBit k = decide (w / 2 ^ k % 2 = 1) := Nat.testBit_eq_decide_div_mod_eq

theorem fieldOp_toNat (w : CmdWord) : (fieldOp w).toNat = w % 16 := by simp [fieldOp, fieldAt_eq]

theorem fieldRsv_toNat (p : PortWidths) (w : CmdWord) : (fieldRsv p w).toNat = w / 2 ^ (p.ctlW - 2) % 4 := by
  simp [fieldRsv, fieldAt_eq]

/-- A control word has at least 16 bits (30_encoding.md R47). -/
theorem PortWidths.le_ctlW (p : PortWidths) : 16 ≤ p.ctlW ∧ p.cidW + 8 ≤ p.ctlW := by
  unfold PortWidths.ctlW
  omega

section Fields
variable (p : PortWidths) (op : BitVec 4) (core : CoreId) (o k : Bool) (rsv : BitVec 2) (hist : Hist) (addr : Addr)

/-- A packed word by places: each field, and what stands above it. -/
theorem packFields_eq :
    packFields p op core o k rsv hist addr =
      op.toNat + 2 ^ 4 * (core + 2 ^ (p.ctlW - 8) * (o.toNat + 2 * (k.toNat + 2 * (rsv.toNat + 4 *
        (hist + 2 ^ p.histW * addr))))) := by
  have h4 : p.ctlW - 4 = 4 + (p.ctlW - 8) := by have := p.le_ctlW; omega
  have h3 : p.ctlW - 3 = 4 + (p.ctlW - 8) + 1 := by have := p.le_ctlW; omega
  have h2 : p.ctlW - 2 = 4 + (p.ctlW - 8) + 2 := by have := p.le_ctlW; omega
  have h0 : p.ctlW = 4 + (p.ctlW - 8) + 4 := by have := p.le_ctlW; omega
  have hc : 2 ^ p.ctlW = 2 ^ (4 + (p.ctlW - 8) + 4) := by rw [← h0]
  rw [packFields, h4, h3, h2, pow_add 2 p.ctlW p.histW, hc]
  simp only [pow_add, pow_one]
  ring

/-- What stands from bit `lo` up, when what stands below it fits. -/
theorem place_div {lo low high : Nat} (h : low < 2 ^ lo) : (low + 2 ^ lo * high) / 2 ^ lo = high := by
  rw [Nat.add_mul_div_left _ _ (Nat.two_pow_pos lo), Nat.div_eq_of_lt h, Nat.zero_add]

theorem place_mod {lo low high : Nat} (h : low < 2 ^ lo) : (low + 2 ^ lo * high) % 2 ^ lo = low := by
  rw [Nat.add_mul_mod_self_left, Nat.mod_eq_of_lt h]

/-- Every field of a packed word is the field that was packed, where the packed values fit their fields. -/
theorem fields_packFields (hcore : core < 2 ^ p.cidW) (hhist : hist < 2 ^ p.histW) (haddr : addr < 2 ^ p.addrW) :
    fieldOp (packFields p op core o k rsv hist addr) = op ∧ fieldCore p (packFields p op core o k rsv hist addr) = core ∧
    fieldOutcome p (packFields p op core o k rsv hist addr) = o ∧ fieldCond p (packFields p op core o k rsv hist addr) = k ∧
    fieldRsv p (packFields p op core o k rsv hist addr) = rsv ∧ fieldHist p (packFields p op core o k rsv hist addr) = hist ∧
    fieldAddr p (packFields p op core o k rsv hist addr) = addr := by
  have hop := op.isLt
  have hrsv := rsv.isLt
  have ho := o.toNat_lt
  have hk := k.toNat_lt
  have hc8 : core < 2 ^ (p.ctlW - 8) :=
    hcore.trans_le (Nat.pow_le_pow_right (by decide) (by have := p.le_ctlW; omega))
  have hle := p.le_ctlW.1
  generalize hw : packFields p op core o k rsv hist addr = w
  rw [packFields_eq] at hw
  have w4 : w / 2 ^ 4 = core + 2 ^ (p.ctlW - 8) * (o.toNat + 2 * (k.toNat + 2 * (rsv.toNat + 4 * (hist + 2 ^ p.histW * addr)))) := by
    rw [← hw, place_div hop]
  have wo : w / 2 ^ (p.ctlW - 4) = o.toNat + 2 * (k.toNat + 2 * (rsv.toNat + 4 * (hist + 2 ^ p.histW * addr))) := by
    rw [show p.ctlW - 4 = 4 + (p.ctlW - 8) by omega, pow_add, ← Nat.div_div_eq_div_mul, w4, place_div hc8]
  have wk : w / 2 ^ (p.ctlW - 3) = k.toNat + 2 * (rsv.toNat + 4 * (hist + 2 ^ p.histW * addr)) := by
    rw [show p.ctlW - 3 = (p.ctlW - 4) + 1 by omega, pow_succ, ← Nat.div_div_eq_div_mul, wo]
    exact place_div (lo := 1) ho
  have wr : w / 2 ^ (p.ctlW - 2) = rsv.toNat + 4 * (hist + 2 ^ p.histW * addr) := by
    rw [show p.ctlW - 2 = (p.ctlW - 3) + 1 by omega, pow_succ, ← Nat.div_div_eq_div_mul, wk]
    exact place_div (lo := 1) hk
  have wh : w / 2 ^ p.ctlW = hist + 2 ^ p.histW * addr := by
    rw [show p.ctlW = (p.ctlW - 2) + 2 by omega, pow_add, ← Nat.div_div_eq_div_mul, wr]
    exact place_div (lo := 2) hrsv
  have wa : w / 2 ^ (p.ctlW + p.histW) = addr := by
    rw [pow_add, ← Nat.div_div_eq_div_mul, wh, place_div hhist]
  refine ⟨?_, ?_, ?_, ?_, ?_, ?_, ?_⟩
  · refine BitVec.eq_of_toNat_eq ?_
    rw [fieldOp_toNat, ← hw, show (16 : Nat) = 2 ^ 4 from rfl, place_mod hop]
  · have hd : (2 : Nat) ^ p.cidW ∣ 2 ^ (p.ctlW - 8) := pow_dvd_pow 2 (by have := p.le_ctlW; omega)
    obtain ⟨q, hq⟩ := hd
    rw [fieldCore, fieldAt_eq, w4, hq, Nat.mul_assoc, place_mod hcore]
  · rw [fieldOutcome, testBit_eq, wo, Nat.add_mul_mod_self_left]
    cases o <;> rfl
  · rw [fieldCond, testBit_eq, wk, Nat.add_mul_mod_self_left]
    cases k <;> rfl
  · refine BitVec.eq_of_toNat_eq ?_
    rw [fieldRsv_toNat, wr]
    exact place_mod (lo := 2) hrsv
  · rw [fieldHist, fieldAt_eq, wh, place_mod hhist]
  · rw [fieldAddr, fieldAt_eq, wa, Nat.mod_eq_of_lt haddr]

/-- A word of fields that fit has `CMD_W` bits (R45). -/
theorem packFields_lt (hcore : core < 2 ^ p.cidW) (hhist : hist < 2 ^ p.histW) (haddr : addr < 2 ^ p.addrW) :
    packFields p op core o k rsv hist addr < 2 ^ p.cmdW := by
  have join : ∀ {lo hi low high : Nat}, low < 2 ^ lo → high < 2 ^ hi → low + 2 ^ lo * high < 2 ^ (lo + hi) := by
    intro lo hi low high h1 h2
    calc low + 2 ^ lo * high < 2 ^ lo * (high + 1) := by rw [Nat.mul_add]; omega
      _ ≤ 2 ^ lo * 2 ^ hi := Nat.mul_le_mul_left _ h2
      _ = 2 ^ (lo + hi) := (pow_add 2 lo hi).symm
  have hc8 : core < 2 ^ (p.ctlW - 8) :=
    hcore.trans_le (Nat.pow_le_pow_right (by decide) (by have := p.le_ctlW; omega))
  have h := join op.isLt (join hc8 (join (lo := 1) o.toNat_lt (join (lo := 1) k.toNat_lt
    (join (lo := 2) rsv.isLt (join hhist haddr)))))
  rw [packFields_eq]
  refine lt_of_lt_of_eq h (congrArg (2 ^ ·) ?_)
  have := p.le_ctlW
  unfold PortWidths.cmdW
  omega

end Fields

/-- The header of a packed word. -/
theorem header_packFields (p : PortWidths) (op : BitVec 4) {core : CoreId} (o k : Bool) (rsv : BitVec 2) {hist : Hist} {addr : Addr}
    (hcore : core < 2 ^ p.cidW) (hhist : hist < 2 ^ p.histW) (haddr : addr < 2 ^ p.addrW) :
    (⟨fieldOp (packFields p op core o k rsv hist addr), fieldRsv p (packFields p op core o k rsv hist addr),
      fieldCore p (packFields p op core o k rsv hist addr)⟩ : Header) = ⟨op, rsv, core⟩ := by
  obtain ⟨h1, h2, -, -, h3, -, -⟩ := fields_packFields p op core o k rsv hist addr hcore hhist haddr
  rw [h1, h2, h3]

/-- What `decodeOp` answers, by the value of `OP`. -/
theorem decodeOp_header (p : PortWidths) (w : CmdWord) :
    Machine.headerOf (decodeOp p w) = ⟨fieldOp w, 0, fieldCore p w⟩ := by
  generalize hop : fieldOp w = op
  unfold decodeOp
  rw [hop]
  revert hop
  have : ∀ op : BitVec 4, op.toNat = 0 ∧ op = 0 ∨ op.toNat = 1 ∧ op = 1 ∨ op.toNat = 2 ∧ op = 2 ∨ op.toNat = 3 ∧ op = 3 ∨
      op.toNat = 4 ∧ op = 4 ∨ op.toNat = 5 ∧ op = 5 ∨ op.toNat = 6 ∧ op = 6 ∨ op.toNat = 7 ∧ op = 7 ∨ 8 ≤ op.toNat := by
    decide
  intro _
  rcases this op with ⟨_, rfl⟩ | ⟨_, rfl⟩ | ⟨_, rfl⟩ | ⟨_, rfl⟩ | ⟨_, rfl⟩ | ⟨_, rfl⟩ | ⟨_, rfl⟩ | ⟨_, rfl⟩ | h
  all_goals first | rfl | skip
  split <;> first | omega | rfl

/-- The header of a decoded word is the word's own `OP`, `RSV` and `CORE`: the decoder drops none of what `precheck` reads and
a fault records. -/
theorem decode_header (p : PortWidths) (w : CmdWord) :
    Machine.headerOf (decode p w) = ⟨fieldOp w, fieldRsv p w, fieldCore p w⟩ := by
  unfold decode
  split
  · rename_i h
    rw [decodeOp_header, h]
  · rfl

/-- The decoder gives only instructions of a row. -/
theorem decode_inRow (p : PortWidths) (w : CmdWord) : (decode p w).inRow = true := by
  unfold decode
  split
  · unfold decodeOp
    split <;> try rfl
    simp only [imp_false] at *
    exact decide_eq_true (by omega)
  · rename_i h
    exact decide_eq_true h

/-- Every operand the decoder reads fits its field. -/
theorem decode_fits (p : PortWidths) (w : CmdWord) : (decode p w).fits p = true := by
  unfold decode
  split
  · unfold decodeOp
    split <;> simp [Instr.fits, fieldCore, fieldHist, fieldAddr, fieldAt_lt]
  · simp [Instr.fits, fieldCore, fieldAt_lt]

/-- The decoder gives only well-formed instructions. -/
theorem decode_wf (p : PortWidths) (w : CmdWord) : (decode p w).wf p = true := by
  rw [Instr.wf, decode_inRow, decode_fits]
  rfl

theorem Instr.inRow_of_wf {p : PortWidths} {i : Instr} (h : i.wf p = true) : i.inRow = true := by
  rw [Instr.wf, Bool.and_eq_true] at h
  exact h.1

theorem Instr.fits_of_wf {p : PortWidths} {i : Instr} (h : i.wf p = true) : i.fits p = true := by
  rw [Instr.wf, Bool.and_eq_true] at h
  exact h.2

/-- The `CORE` of an instruction that fits has `CID_W` bits. -/
theorem headerOf_core_lt {p : PortWidths} {i : Instr} (h : i.fits p = true) : (Machine.headerOf i).core < 2 ^ p.cidW := by
  cases i <;> simp [Instr.fits] at h <;> simp [Machine.headerOf, h]

end Sys2Proof
end

