-- ==== Sys2Proof/Laws/PerInstr.lean ====
section
/-! SUPPORT. The family EncodedHeader: at every choice of the port widths, the word of an instruction whose operands fit carries its
`OP`, `RSV` and `CORE` (30_encoding.md R47, R48), which is all that `precheck` reads and a fault records. -/

namespace Sys2Proof.Laws

def EncodedHeader.Statement (i : Instr) : Prop :=
  ∀ p : PortWidths, i.fits p = true →
    (⟨fieldOp (encode p i), fieldRsv p (encode p i), fieldCore p (encode p i)⟩ : Header) = Machine.headerOf i

/-- A word whose only operand is its core. -/
theorem EncodedHeader.one_core (p : PortWidths) (op : BitVec 4) (rsv : BitVec 2) {core : CoreId} (h : decide (core < 2 ^ p.cidW) = true) :
    (⟨fieldOp (packFields p op core false false rsv 0 0), fieldRsv p (packFields p op core false false rsv 0 0),
      fieldCore p (packFields p op core false false rsv 0 0)⟩ : Header) = ⟨op, rsv, core⟩ :=
  header_packFields p op false false rsv (of_decide_eq_true h) (Nat.two_pow_pos _) (Nat.two_pow_pos _)

theorem EncodedHeader.init (core : CoreId) : EncodedHeader.Statement (.init core) :=
  fun p h => one_core p _ 0 h
theorem EncodedHeader.predict (core : CoreId) (hist : Hist) (addr : Addr) :
    EncodedHeader.Statement (.predict core hist addr) := by
  intro p h
  simp only [Instr.fits, Bool.and_eq_true, decide_eq_true_eq] at h
  exact header_packFields p _ _ _ 0 h.1.1 h.1.2 h.2
theorem EncodedHeader.update (core : CoreId) (outcome cond : Bool) (hist : Hist) (addr : Addr) :
    EncodedHeader.Statement (.update core outcome cond hist addr) := by
  intro p h
  simp only [Instr.fits, Bool.and_eq_true, decide_eq_true_eq] at h
  exact header_packFields p _ _ _ 0 h.1.1 h.1.2 h.2
theorem EncodedHeader.full (core : CoreId) : EncodedHeader.Statement (.full core) :=
  fun p h => one_core p _ 0 h
theorem EncodedHeader.timestamp (core : CoreId) : EncodedHeader.Statement (.timestamp core) :=
  fun p h => one_core p _ 0 h
theorem EncodedHeader.recover (core : CoreId) : EncodedHeader.Statement (.recover core) :=
  fun p h => one_core p _ 0 h
theorem EncodedHeader.specUpdate (core : CoreId) : EncodedHeader.Statement (.specUpdate core) :=
  fun p h => one_core p _ 0 h
theorem EncodedHeader.retire (core : CoreId) : EncodedHeader.Statement (.retire core) :=
  fun p h => one_core p _ 0 h
theorem EncodedHeader.reservedOp (op : BitVec 4) (core : CoreId) : EncodedHeader.Statement (.reservedOp op core) :=
  fun p h => one_core p op 0 h
theorem EncodedHeader.reservedRsv (rsv : BitVec 2) (op : BitVec 4) (core : CoreId) :
    EncodedHeader.Statement (.reservedRsv rsv op core) := fun p h => one_core p op rsv h

end Sys2Proof.Laws
end

