-- ==== Sys2Proof/Laws/Row.lean ====
section
/-! SUPPORT. The bit pattern of an SRAM row, field by field. -/

namespace Sys2Proof.Machine

/-- A field in range survives its 8-bit pattern (00_scope.md R10). -/
theorem sext8_enc8 {v : Int} (h1 : -128 ≤ v) (h2 : v ≤ 127) : sext8 (enc8 v) = v := by
  rw [sext8, enc8, BitVec.toInt_ofInt, Int.bmod_eq_of_le] <;> omega

theorem packRow_lt (l : List Int) : packRow l < 2 ^ (8 * l.length) := by
  induction l with
  | nil => simp [packRow]
  | cons v l ih =>
    have hlt := (enc8 v).isLt
    have hpow : 2 ^ (8 * (l.length + 1)) = 256 * 2 ^ (8 * l.length) := by
      rw [Nat.mul_add, pow_add]
      ring
    simp only [packRow, List.length_cons]
    omega

theorem unpackRow_packRow {l : List Int} (h : ∀ v ∈ l, -128 ≤ v ∧ v ≤ 127) : unpackRow l.length (packRow l) = l := by
  induction l with
  | nil => rfl
  | cons v l ih =>
    have hv := h v (by simp)
    have hlt := (enc8 v).isLt
    have hlow : BitVec.ofNat 8 ((enc8 v).toNat + 256 * packRow l) = enc8 v :=
      BitVec.eq_of_toNat_eq (by rw [BitVec.toNat_ofNat]; omega)
    have hhigh : ((enc8 v).toNat + 256 * packRow l) / 256 = packRow l := by omega
    simp only [List.length_cons, unpackRow, packRow]
    rw [hlow, hhigh, ih fun p hp => h p (by simp [hp]), sext8_enc8 hv.1 hv.2]

/-- Field `i` of a row stands in bits [8i+7:8i] (20_memory.md R31). -/
theorem packRow_field {l : List Int} {i : Nat} (hi : i < l.length) :
    BitVec.ofNat 8 (packRow l / 2 ^ (8 * i)) = enc8 (l.getD i 0) := by
  induction l generalizing i with
  | nil => simp at hi
  | cons v l ih =>
    have hlt := (enc8 v).isLt
    cases i with
    | zero =>
      simp only [packRow, Nat.mul_zero, pow_zero, Nat.div_one, List.getD_cons_zero]
      exact BitVec.eq_of_toNat_eq (by rw [BitVec.toNat_ofNat]; omega)
    | succ i =>
      have hdiv : packRow (v :: l) / 2 ^ (8 * (i + 1)) = packRow l / 2 ^ (8 * i) := by
        rw [Nat.mul_add, Nat.add_comm, pow_add, ← Nat.div_div_eq_div_mul]
        congr 1
        simp only [packRow]
        omega
      rw [hdiv, ih (by simpa using hi), List.getD_cons_succ]

end Sys2Proof.Machine
end

