-- ==== Sys2Proof/Laws/Step.lean ====
section
/-! SUPPORT. All that a step can do, by the host's next event, and what a run of steps can be. -/

namespace Sys2Proof.Machine

/-- An accepted word is decoded and run. -/
theorem step_of_cmd {s : State} {w : CmdWord} {rest : List HostEvent} (hc : cfgOk s.cfg = true) (hh : s.halted = false)
    (he : s.host = .cmd w :: rest) : step s = exec (decode s.cfg.toPortWidths w) (takeEvent rest s) := by
  simp [step, stepWith, hc, hh, he]

/-- A word offered to a halted block is turned away (60_exceptions.md R93). -/
theorem step_of_offer_halted {s : State} {w : CmdWord} {rest : List HostEvent} (hc : cfgOk s.cfg = true)
    (hh : s.halted = true) (he : s.host = .cmd w :: rest) : step s = .next (takeEvent rest s) := by
  simp [step, stepWith, hc, hh, he]

/-- `rst` resets the block in every state (70_reset_and_hazards.md R103). -/
theorem step_of_rst {s : State} {rest : List HostEvent} (hc : cfgOk s.cfg = true) (he : s.host = .rst :: rest) :
    step s = .next (hardReset (takeEvent rest s)) := by simp [step, stepWith, hc, he]

theorem step_of_cmdThenRst {s : State} {w : CmdWord} {rest : List HostEvent} (hc : cfgOk s.cfg = true)
    (he : s.host = .cmdThenRst w :: rest) : step s = .next (hardReset (takeEvent rest s)) := by
  simp [step, stepWith, hc, he]

theorem step_of_idle {s : State} (hc : cfgOk s.cfg = true) (hh : s.halted = false) (he : s.host = []) :
    step s = .next (takeEvent [] s) := by simp [step, stepWith, hc, hh, he]

theorem step_of_halted {s : State} (hc : cfgOk s.cfg = true) (hh : s.halted = true) (he : s.host = []) :
    step s = .fault (.halted s.faultCause) := by simp [step, stepWith, hc, hh, he]

theorem step_of_badConfig {s : State} (hc : cfgOk s.cfg = false) : step s = .refused .badConfiguration := by
  simp [step, stepWith, hc]

/-- All that a next state can be. -/
theorem step_next_cases {s t : State} (h : step s = .next t) :
    cfgOk s.cfg = true ∧
    ((s.host = [] ∧ s.halted = false ∧ t = takeEvent [] s) ∨
     (∃ w rest, s.host = .cmd w :: rest ∧ s.halted = true ∧ t = takeEvent rest s) ∨
     (∃ w rest, s.host = .cmd w :: rest ∧ s.halted = false ∧ exec (decode s.cfg.toPortWidths w) (takeEvent rest s) = .next t) ∨
     (∃ rest, (s.host = .rst :: rest ∨ ∃ w, s.host = .cmdThenRst w :: rest) ∧ t = hardReset (takeEvent rest s))) := by
  cases hc : cfgOk s.cfg with
  | false =>
    rw [step_of_badConfig hc] at h
    cases h
  | true =>
    refine ⟨rfl, ?_⟩
    cases he : s.host with
    | nil =>
      cases hh : s.halted with
      | true =>
        rw [step_of_halted hc hh he] at h
        cases h
      | false =>
        rw [step_of_idle hc hh he] at h
        exact Or.inl ⟨rfl, rfl, by simpa using h.symm⟩
    | cons ev rest =>
      cases ev with
      | cmd w =>
        cases hh : s.halted with
        | true =>
          rw [step_of_offer_halted hc hh he] at h
          exact Or.inr (Or.inl ⟨w, rest, rfl, rfl, by simpa using h.symm⟩)
        | false =>
          rw [step_of_cmd hc hh he] at h
          exact Or.inr (Or.inr (Or.inl ⟨w, rest, rfl, rfl, h⟩))
      | rst =>
        rw [step_of_rst hc he] at h
        exact Or.inr (Or.inr (Or.inr ⟨rest, Or.inl rfl, by simpa using h.symm⟩))
      | cmdThenRst w =>
        rw [step_of_cmdThenRst hc he] at h
        exact Or.inr (Or.inr (Or.inr ⟨rest, Or.inr ⟨w, rfl⟩, by simpa using h.symm⟩))

/-- A run of `k + 1` steps that gets through is a step and a run of `k`. -/
theorem run_succ_next {k : Nat} {s t : State} (h : Sys2Proof.core.run (k + 1) s = .next t) :
    ∃ s', step s = .next s' ∧ Sys2Proof.core.run k s' = .next t := by
  have hrun := Host.Core.run.eq_2 Sys2Proof.core s k
  rw [hrun] at h
  cases hs : step s with
  | next s' =>
    rw [show Sys2Proof.core.step s = .next s' from hs] at h
    exact ⟨s', rfl, h⟩
  | fault r =>
    rw [show Sys2Proof.core.step s = .fault r from hs] at h
    cases h
  | refused r =>
    rw [show Sys2Proof.core.step s = .refused r from hs] at h
    cases h

/-- A step, and what the run does after it. -/
theorem run_succ_of_step {s s' : State} (k : Nat) (h : step s = .next s') :
    Sys2Proof.core.run (k + 1) s = Sys2Proof.core.run k s' := by
  rw [Host.Core.run.eq_2 Sys2Proof.core s k, show Sys2Proof.core.step s = .next s' from h]

/-- A run that gets through `n` steps goes on from where they lead. -/
theorem run_add_of_next {n : Nat} {s t : State} (k : Nat) (h : Sys2Proof.core.run n s = .next t) :
    Sys2Proof.core.run (n + k) s = Sys2Proof.core.run k t := by
  induction n generalizing s with
  | zero =>
    cases h
    rw [Nat.zero_add]
  | succ n ih =>
    obtain ⟨s', hs, h'⟩ := run_succ_next h
    rw [Nat.add_right_comm, run_succ_of_step _ hs, ih h']

/-- No step: nothing is left to do, and the state is no fault state. -/
theorem completes_zero_iff {s : State} : CompletesWithoutFault 0 s ↔ s.host = [] ∧ s.isFaultState = false := by
  constructor
  · rintro ⟨⟨t, ht, hh⟩, h⟩
    cases ht
    exact ⟨hh, h 0 s (Nat.le_refl 0) rfl⟩
  · rintro ⟨hh, hf⟩
    refine ⟨⟨s, rfl, hh⟩, fun j t hj ht => ?_⟩
    obtain rfl := Nat.le_zero.1 hj
    cases ht
    exact hf

/-- A run completes without a fault when its first state is no fault state and the rest of it completes without a fault. -/
theorem completes_succ_iff {k : Nat} {s : State} :
    CompletesWithoutFault (k + 1) s ↔ s.isFaultState = false ∧ ∃ s', step s = .next s' ∧ CompletesWithoutFault k s' := by
  constructor
  · rintro ⟨⟨t, ht, hh⟩, h⟩
    obtain ⟨s', hs, ht'⟩ := run_succ_next ht
    refine ⟨h 0 s (Nat.zero_le _) rfl, s', hs, ⟨t, ht', hh⟩, fun j u hj hu => ?_⟩
    exact h (j + 1) u (Nat.succ_le_succ hj) (by rw [run_succ_of_step j hs, hu])
  · rintro ⟨hf, s', hs, ⟨t, ht, hh⟩, h⟩
    refine ⟨⟨t, by rw [run_succ_of_step k hs, ht], hh⟩, fun j u hj hu => ?_⟩
    cases j with
    | zero =>
      cases hu
      exact hf
    | succ j =>
      rw [run_succ_of_step j hs] at hu
      exact h j u (Nat.le_of_succ_le_succ hj) hu

end Sys2Proof.Machine
end

