-- ==== Sys2Proof/Tests/Slice0.lean ====
section
/-! SUPPORT. Tests whose expected results are the spec's vectors (95_test_vectors.md), then, for every statement with hypotheses,
a witness that meets them. -/

namespace Sys2Proof.Tests

open Sys2Proof.Machine Sys2Proof.Spec

/-- `T0` of 95_test_vectors.md section 2.6: just after a completed INIT. -/
def zeroed : State := { State.reset with tbl := some [], initDone := true }

/-- `T0` with one Entry, as the spec writes it: `(bias; k*12)` in row `r`. -/
def withEntry (r : Nat) (bias k : Int) : State := { zeroed with tbl := some [(r, ⟨bias, List.replicate 12 k⟩)] }

/-- The state after V13: a second INIT has faulted REINIT. -/
def haltedState : State := { zeroed with halted := true, faultCause := 3 }

/-- `s` when the host's next event is to offer `w`. -/
def offering (s : State) (w : CmdWord) : State := offerNext w s

/-- `f` of the next state, or false if there is none. -/
def nextIs (o : Host.Outcome State Fault Refusal) (f : State → Bool) : Bool :=
  match o with
  | .next t => f t
  | .fault _ => false
  | .refused _ => false

/-- The response and the status word a step leaves. -/
def answers (o : Host.Outcome State Fault Refusal) (rsp : RspWord) (status : StatusWord) : Bool :=
  nextIs o fun t => decide (t.rsp = some rsp) && decide (statusO t = status)

/-! ## Well-formedness: each check with a term it refuses -/

/-- The port widths of the instance. -/
abbrev ports : PortWidths := instanceConfig.toPortWidths

theorem test_wf_refuses_reservedOp_below_eight : Instr.wf ports (.reservedOp 7 0) = false := by decide
theorem test_wf_refuses_reservedRsv_zero : Instr.wf ports (.reservedRsv 0 9 0) = false := by decide
theorem test_wf_refuses_wide_core : [Instr.init 256, .predict 256 0 0, .update 256 true true 0 0, .full 256, .timestamp 256,
    .recover 256, .specUpdate 256, .retire 256, .reservedOp 8 256, .reservedRsv 1 0 256].any (Instr.wf ports) = false := by decide
theorem test_wf_refuses_wide_operands : [Instr.predict 0 (2 ^ 32) 0, .predict 0 0 (2 ^ 64), .update 0 true true (2 ^ 32) 0,
    .update 0 true true 0 (2 ^ 64)].any (Instr.wf ports) = false := by decide
theorem test_wf_accepts : Instr.wf ports (.reservedOp 8 255) = true ∧ Instr.wf ports (.reservedRsv 3 0 0) = true ∧
    Instr.wf ports (.predict 255 0xFFFFFFFF 0xFFFFFFFFFFFFFFFF) = true := by decide

/-! ## Decoding: words written out from 30_encoding.md R47 and 95_test_vectors.md sections 2.6 and 3 -/

theorem test_decode_init : decode ports 0x0000000000000000000000000000 = .init 0 := by decide
theorem test_decode_predict : decode ports 0x00000000000010048FFFFFFF0011 = .predict 1 0x8FFFFFFF 0x1004 := by decide
theorem test_decode_update : decode ports 0x0000000000002000FFF000003002 = .update 0 true true 0xFFF00000 0x2000 := by decide
theorem test_decode_update_not_taken : decode ports 0x0000000000001000000000002002 = .update 0 false true 0 0x1000 := by decide
theorem test_decode_full : decode ports 0x0000000000000000000000000003 = .full 0 := by decide
theorem test_decode_timestamp : decode ports 0x0000000000000000000000000014 = .timestamp 1 := by decide
theorem test_decode_recover : decode ports 0x0000000000000000000000000005 = .recover 0 := by decide
theorem test_decode_specUpdate : decode ports 0x0000000000000000000000000006 = .specUpdate 0 := by decide
theorem test_decode_retire : decode ports 0x0000000000000000000000000007 = .retire 0 := by decide
theorem test_decode_reservedOp : decode ports 0x0000000000000000000000000038 = .reservedOp 8 3 := by decide
theorem test_decode_reservedRsv : decode ports 0x0000000000001000000000004001 = .reservedRsv 1 1 0 := by decide
/-- R47's general columns: a 16-bit history and a 32-bit address; then a `CID_W` of 16, which moves every later field up by 8. -/
theorem test_decode_other_widths : decode ⟨16, 32, 8⟩ 0x000010048FFF0011 = .predict 1 0x8FFF 0x1004 ∧
    decode ⟨32, 64, 16⟩ 0x000000000000200080000000301FF2 = .update 0x1FF true true 0x80000000 0x2000 := by decide
theorem test_decodeTableWord : decodeTableWord 112 0xC00F = some (.reservedRsv 3 15 0) ∧ decodeTableWord 113 0 = none := by decide

/-! ## One step: 95_test_vectors.md section 2.6 -/

theorem test_init_V1 : nextIs (step (offering State.reset 0x0)) (fun t =>
    decide (t = { zeroed with rsp := some 0x00 })) = true := by decide
theorem test_init_again_V13 : answers (step (offering zeroed 0x0)) 0x0C 0x000F = true := by decide
theorem test_predict_V2 : answers (step (offering zeroed 0x1000000000000001)) 0x01 0x0001 = true := by decide
theorem test_predict_P1_row4 :
    answers (step (offering (withEntry 0x400 (-1) 1) 0x0000000000001000000000000001)) 0x00 0x0001 = true := by decide
theorem test_update_V3 : nextIs (step (offering zeroed 0x0000000000001000000000002002)) (fun t =>
    decide (t.tbl = some [(0x400, ⟨-1, List.replicate 12 1⟩)]) && decide (t.rsp = some 0x00)) = true := by decide
theorem test_update_V4 : nextIs (step (offering zeroed 0x0000000000001000000000000002)) (fun t =>
    decide (t = { zeroed with rsp := some 0x00 })) = true := by decide
theorem test_full_V6 : answers (step (offering zeroed 0x3)) 0x00 0x0001 = true := by decide
theorem test_timestamp_V7 : answers (step (offering zeroed 0x14)) 0x00 0x0001 = true := by decide
theorem test_recover_keeps_training : nextIs (step (offering (withEntry 0x400 (-1) 1) 0x5)) (fun t =>
    decide (t = { withEntry 0x400 (-1) 1 with rsp := some 0x00 })) = true := by decide
theorem test_specUpdate_V9 : answers (step (offering zeroed 0x6)) 0x00 0x0001 = true := by decide
theorem test_retire_V10 : answers (step (offering zeroed 0x7)) 0x00 0x0001 = true := by decide
theorem test_notInit_V12_V18 : answers (step (offering State.reset 0x0000000000001000000000000001)) 0x08 0x010A = true ∧
    nextIs (step (offering State.reset 0x91)) (fun t => decide (statusO t = 0x010A) && decide (faultCoreO t = 9)) = true := by
  decide
theorem test_coreRange_V14_V15 :
    nextIs (step (offering zeroed 0x0000000000001000000000000021))
      (fun t => decide (t.rsp = some 0x10) && decide (statusO t = 0x0113) && decide (faultCoreO t = 2)) = true ∧
    nextIs (step (offering zeroed 0x0000000000001000000000000FF2))
      (fun t => decide (t.rsp = some 0x10) && decide (statusO t = 0x0213) && decide (faultCoreO t = 255)) = true := by decide
/-- A `CORE` of 16 bits: recorded whole (10_state.md R21, R22), in a word laid out by R47's last sentence. -/
theorem test_coreRange_wide_core : nextIs (step (offering { zeroed with cfg := { instanceConfig with cidW := 16 } } 0x1FF3))
    (fun t => decide (t.rsp = some 0x10) && decide (faultCoreO t = 0x1FF)) = true := by decide
/-- `HIST_W = 16`: the top bit is bit 15 (R60), and the address stands above bit 32 of the word (R47). -/
theorem test_predict_narrow_history :
    nextIs (step (offering { withEntry 0x400 (-12) 1 with cfg := { instanceConfig with histW := 16 } } 0x1000FFF00001))
      (fun t => decide (t.rsp = some 0x01)) = true ∧
    nextIs (step (offering { withEntry 0x400 (-12) 1 with cfg := { instanceConfig with histW := 16 } } 0x10007FF00001))
      (fun t => decide (t.rsp = some 0x00)) = true := by decide
theorem test_reservedOp_V16_V19 :
    nextIs (step (offering zeroed 0x38))
      (fun t => decide (t.rsp = some 0x04) && decide (statusO t = 0x0807) && decide (faultCoreO t = 3)) = true ∧
    answers (step (offering State.reset 0xF)) 0x04 0x0F06 = true := by decide
theorem test_reservedRsv_V17_V20 :
    answers (step (offering zeroed 0x0000000000001000000000004001)) 0x04 0x0107 = true ∧
    answers (step (offering State.reset 0x8000)) 0x04 0x0006 = true := by decide
theorem test_halted_V21 : nextIs (step (offering haltedState 0x0000000000001000000000000001)) (fun t =>
    decide (t = haltedState)) = true := by decide
theorem test_rst_V22 : nextIs (step { haltedState with host := [.rst] }) (fun t => decide (t = State.reset)) = true := by decide

/-! ## The datapath: 95_test_vectors.md sections 2.1 to 2.5 -/

theorem test_index_vectors :
    index 12 0x3 = 0x000 ∧ index 12 0x4 = 0x001 ∧ index 12 0x1003 = 0x400 ∧ index 12 0x3FFC = 0xFFF ∧ index 12 0x4000 = 0x000 ∧
      index 12 0x5000 = 0x400 ∧ index 12 0xFFFFFFFFFFFFFFFF = 0xFFF ∧ index 12 0x123456789ABCDEF0 = 0x7BC := by decide

/-- P-3, P-5 to P-9. -/
theorem test_score_vectors :
    score 32 ⟨-1, List.replicate 12 1⟩ 0 = -13 ∧ score 32 ⟨3, List.replicate 12 3⟩ 0 = -33 ∧
      score 32 ⟨127, List.replicate 12 (-128)⟩ 0 = 1663 ∧ score 32 ⟨-128, List.replicate 12 (-128)⟩ 0xFFF00000 = -1664 ∧
      score 32 ⟨5, List.replicate 12 1⟩ 0x000FFFFF = -7 ∧ score 32 ⟨-1, -1 :: List.replicate 11 1⟩ 0x8FFFFFFF = 3 := by decide

/-- G1 to G8. -/
theorem test_gate_vectors :
    train 32 37 ⟨36, List.replicate 12 0⟩ 0 true = ⟨37, List.replicate 12 (-1)⟩ ∧
      train 32 37 ⟨37, List.replicate 12 0⟩ 0 true = ⟨37, List.replicate 12 0⟩ ∧
      train 32 37 ⟨37, List.replicate 12 0⟩ 0 false = ⟨36, List.replicate 12 1⟩ ∧
      train 32 37 ⟨-36, List.replicate 12 0⟩ 0 false = ⟨-37, List.replicate 12 1⟩ ∧
      train 32 37 ⟨-37, List.replicate 12 0⟩ 0 false = ⟨-37, List.replicate 12 0⟩ ∧
      train 32 37 ⟨-37, List.replicate 12 0⟩ 0 true = ⟨-36, List.replicate 12 (-1)⟩ ∧
      train 32 37 ⟨-1, List.replicate 12 0⟩ 0 false = ⟨-2, List.replicate 12 1⟩ ∧
      train 32 37 ⟨0, List.replicate 12 0⟩ 0 false = ⟨-1, List.replicate 12 1⟩ := by decide

/-- S1 to S4. -/
theorem test_saturation_vectors :
    train 32 37 ⟨127, List.replicate 12 (-128)⟩ 0xFFF00000 true = ⟨127, List.replicate 12 (-127)⟩ ∧
      train 32 37 ⟨-128, List.replicate 12 127⟩ 0xFFF00000 false = ⟨-128, List.replicate 12 126⟩ ∧
      train 32 37 ⟨-128, -128 :: List.replicate 11 0⟩ 0 true = ⟨-127, -128 :: List.replicate 11 (-1)⟩ ∧
      train 32 37 ⟨127, 127 :: List.replicate 11 0⟩ 0 false = ⟨126, 127 :: List.replicate 11 1⟩ := by decide

theorem test_theta_vectors : [1, 8, 12, 15, 16, 29, 32].map thetaOf = [15, 29, 37, 42, 44, 69, 75] := by decide

/-! ## Witnesses: for every statement with hypotheses, values that meet them -/

theorem witness_zeroed_inv : zeroed.Inv :=
  ⟨by decide, by decide, fun m h => by cases h; decide, by decide, by decide, by decide, by decide⟩

theorem witness_trained_inv : (withEntry 0x400 (-1) 1).Inv :=
  ⟨by decide, by decide, fun m h => by cases h; decide, by decide, by decide, by decide, by decide⟩

theorem witness_halted_inv : haltedState.Inv :=
  ⟨by decide, by decide, fun m h => by cases h; decide, by decide, by decide, by decide, by decide⟩

theorem witness_DecodeFollowsTheFieldLayout :
    ports.cidW = 8 ∧ bits 0x8 3 0 = 8 ∧ bits 0xF 15 14 = 0 ∧ bits 0x4001 15 14 = 1 ∧
      (∀ n : Fin 8, bits n 3 0 = n ∧ bits n 15 14 = 0) := by decide

theorem witness_DecodeFollowsTheLayoutAtEveryWidth :
    opOf 0x8 = 8 ∧ rsvOf ports 0xF = 0 ∧ rsvOf ports 0x4001 = 1 ∧ rsvOf ⟨32, 64, 16⟩ 0x4001 = 0 ∧ rsvOf ⟨32, 64, 16⟩ 0x400001 = 1 ∧
      (∀ n : Fin 8, opOf n = n ∧ rsvOf ports n = 0) := by decide

theorem witness_DecodeEncodeRoundTrip :
    Instr.wf ports (.update 255 true true 0xFFFFFFFF 0xFFFFFFFFFFFFFFFF) = true ∧ Instr.wf ports (.reservedOp 15 255) = true ∧
      Instr.wf ⟨1, 3, 0⟩ (.update 0 true true 1 7) = true ∧ Instr.wf ⟨32, 64, 16⟩ (.reservedRsv 3 0 0xFFFF) = true := by decide

/-- Words that differ in ignored fields only, for each clause; the last two are INITs that fault with different `CORE`s. -/
theorem witness_IgnoredFieldsNeverMatter :
    (opOf 0x0 = opOf 0x3FF0 ∧ rsvOf ports 0x0 = rsvOf ports 0x3FF0 ∧ opOf 0x3FF0 = 0 ∧ State.reset.initDone = false) ∧
    (coreOf ports 0x1 = coreOf ports 0x3001 ∧ opOf 0x1 = 1 ∧ opOf 0x3001 = 1 ∧ histOf ports 0x1 = histOf ports 0x3001 ∧
      addrOf ports 0x1 = addrOf ports 0x3001) ∧
    (condOf ports 0x2 = 0 ∧ condOf ports 0x1000000001002 = 0 ∧ coreOf ports 0x2 = coreOf ports 0x1000000001002) ∧
    (opOf 0x802 = 2 ∧ coreOf ⟨32, 64, 7⟩ 0x802 = coreOf ⟨32, 64, 7⟩ 0x2) ∧
    (3 ≤ opOf 0x3 ∧ coreOf ports 0x3 = coreOf ports 0x1000000013003) ∧
    (rsvOf ports 0x4002 ≠ 0 ∧ rsvOf ports 0x4002 = rsvOf ports 0x17002 ∧ coreOf ports 0x4002 = coreOf ports 0x17002) ∧
    nextIs (stepOn zeroed 0x0) (fun _ => true) = true ∧ nextIs (stepOn zeroed 0x10) (fun _ => true) = true := by decide

theorem witness_LookupReadsOnlyIndexAndTopHistory :
    (withEntry 0x400 (-1) 1).Inv ∧ (0x1000 : Addr) ≠ 0x5003 ∧ (0xFFF00000 : Hist) ≠ 0xFFFFFFFF ∧
      (∀ k : Fin 64, 2 ≤ k.val → k.val < 12 + 2 → Nat.testBit 0x1000 k = Nat.testBit 0x5003 k) ∧
      (∀ k : Fin 32, 32 - 12 ≤ k.val → Nat.testBit 0xFFF00000 k = Nat.testBit 0xFFFFFFFF k) :=
  ⟨witness_trained_inv, by decide⟩

theorem witness_OnlyConfigurationsOfThisBlockRun :
    cfgOk State.reset.cfg = true ∧ cfgOk { instanceConfig with H := 33 } = false ∧ cfgOk { instanceConfig with accW := 11 } = false ∧
      cfgOk { instanceConfig with accW := 12 } = true ∧ cfgOk { instanceConfig with numCores := 256 } = true ∧
      cfgOk { instanceConfig with numCores := 257 } = false ∧ cfgOk { instanceConfig with numCores := 0 } = false ∧
      cfgOk { instanceConfig with histW := 12, addrW := 14, cidW := 1 } = true ∧ cfgOk { instanceConfig with histW := 11 } = false ∧
      cfgOk { instanceConfig with addrW := 13 } = false ∧ cfgOk { instanceConfig with cidW := 0 } = false := by decide

theorem witness_ParametersNeverChange : ∃ t, step (offering State.reset 0x0) = .next t ∧ t ≠ State.reset :=
  ⟨_, rfl, by decide⟩

theorem witness_AccumulatorNeverOverflows :
    Entry.fits 12 ⟨127, List.replicate 12 (-128)⟩ = true ∧ accWMin 12 ≤ 12 ∧
      List.Perm (products 32 ⟨127, List.replicate 12 (-128)⟩ 0) (products 32 ⟨127, List.replicate 12 (-128)⟩ 0) ∧
      [128, 128] <+: products 32 ⟨127, List.replicate 12 (-128)⟩ 0 :=
  ⟨by decide, by decide, List.Perm.refl _, by decide⟩

theorem witness_AliasingIsAgreementOnIndexBits :
    (∀ k : Fin 14, 2 ≤ k.val → Nat.testBit 0x1003 k = Nat.testBit 0x5000 k) ∧
      (∀ k : Fin 64, 2 ≤ k.val → Nat.testBit 0x1003 k = Nat.testBit 0x1000 k) ∧
      (∀ k : Fin 14, Nat.testBit 0x5000 k = Nat.testBit 0x1000 k) ∧ index 12 0x1004 ≠ index 12 0x1000 := by decide

theorem witness_ScoreRangeIsTight :
    Entry.fits 12 ⟨-128, List.replicate 12 127⟩ = true ∧ Entry.fits 12 ⟨-129, List.replicate 12 127⟩ = false ∧ 12 ≤ 32 := by decide

theorem witness_TrainMovesEveryFieldTowardsOutcome :
    gate 37 (score 32 ⟨37, List.replicate 12 0⟩ 0) true = false ∧ gate 37 (score 32 ⟨36, List.replicate 12 0⟩ 0) true = true ∧
      11 < (⟨36, List.replicate 12 0⟩ : Entry).w.length := by decide

theorem witness_TrainChangesEntryExactlyWhenGateOpens :
    Entry.fits 1 ⟨127, [-128]⟩ = true ∧ gate (thetaOf 1) (score 32 ⟨127, [-128]⟩ 0) true = false ∧
      gate (thetaOf 1) (score 32 ⟨127, [-128]⟩ 0) false = true := by decide

/-- Two weights exchanged, read against the two history bits exchanged. -/
theorem witness_PairingOfWeightsIsUnobservable :
    (∀ i : Fin 2, ([7, 5] : List Int).getD i 0 = ([5, 7] : List Int).getD (Equiv.swap (0 : Fin 2) 1 i) 0) ∧
      (∀ i : Fin 2, Nat.testBit 0x40000000 (31 - i) = Nat.testBit 0x80000000 (31 - Equiv.swap (0 : Fin 2) 1 i)) := by
  decide

/-- One step below `THETA`, with a saturated field; and a score of exactly `THETA`. -/
theorem witness_TrainingRaisesScoreUntilGateCloses :
    Entry.fits 2 ⟨-127, [127, 36]⟩ = true ∧ score 32 ⟨-127, [127, 36]⟩ 0xC0000000 < 37 ∧ unsaturated 32 ⟨-127, [127, 36]⟩ 0xC0000000 = 2 ∧
      37 ≤ score 32 ⟨1, [36]⟩ 0x80000000 := by decide

theorem witness_RowLayoutRoundTrip :
    Entry.fits 12 ⟨-128, List.replicate 12 127⟩ = true ∧ entryToRow 1 ⟨-1, [-128]⟩ = 0x80FF#16 := by decide

theorem witness_InitZeroesEveryTable : State.reset.initDone = false ∧ 1 < State.reset.cfg.numCores ∧ 4095 < 2 ^ State.reset.cfg.H := by
  decide

theorem witness_SecondInitFaults : zeroed.initDone = true := rfl

theorem witness_PredictAnswersTheDirection :
    zeroed.initDone = true ∧ 1 < zeroed.cfg.numCores ∧
      sramRead zeroed (1 * 2 ^ zeroed.cfg.H + 0x1000 / 4 % 2 ^ zeroed.cfg.H) = some (zeroEntry 12) := by
  decide

theorem witness_UpdateTrainsTheSelectedEntry :
    (withEntry 0x400 (-1) 1).initDone = true ∧ (withEntry 0x400 (-1) 1).tbl = some [(0x400, ⟨-1, List.replicate 12 1⟩)] ∧
      Memory.wf (zeroEntry 12) [(0x400, ⟨-1, List.replicate 12 1⟩)] = true ∧ 0 < (withEntry 0x400 (-1) 1).cfg.numCores ∧
      commandRow instanceConfig 0 0x1000 = 0x400 := by decide

theorem witness_UpdateOfNonBranchChangesNothing : zeroed.initDone = true ∧ 1 < zeroed.cfg.numCores := by decide

theorem witness_PredictSeesTheUpdateBeforeIt :
    zeroed.initDone = true ∧ zeroed.tbl = some [] ∧ Memory.wf (zeroEntry zeroed.cfg.H) [] = true ∧ 0 < zeroed.cfg.numCores ∧
      index zeroed.cfg.H 0x5003 = index zeroed.cfg.H 0x1000 := by decide

theorem witness_CapacityQueryAndHooksAnswerZero : zeroed.initDone = true ∧ 0 < zeroed.cfg.numCores := by decide

theorem witness_UseBeforeInitFaults : carriesCore (.update 0 true false 0 0) = true ∧ State.reset.initDone = false := by decide

/-- The first core out of range, on an UPDATE with `COND = 0`. -/
theorem witness_CoreOutOfRangeFaults :
    carriesCore (.update 2 true false 0 0) = true ∧ zeroed.initDone = true ∧
      zeroed.cfg.numCores ≤ (headerOf (.update 2 true false 0 0)).core := by decide

/-- A word and a state for each clause, at the boundaries `OP = 7`, `OP = 8`, `CORE = 1`, `CORE = 2`. -/
theorem witness_PrecheckReportsTheFirstFault :
    (cfgOk State.reset.cfg = true ∧ State.reset.halted = false ∧ State.reset.tbl.isSome = State.reset.initDone ∧ zeroed.halted = false ∧
      zeroed.tbl.isSome = zeroed.initDone) ∧
    (8 ≤ opOf 0x8 ∧ rsvOf ports 0x8000 ≠ 0) ∧
    (rsvOf ports 0x0 = 0 ∧ opOf 0x0 = 0 ∧ zeroed.initDone = true ∧ State.reset.initDone = false) ∧
    (rsvOf ports 0x17 = 0 ∧ 1 ≤ opOf 0x17 ∧ opOf 0x17 ≤ 7 ∧ coreOf ports 0x17 < zeroed.cfg.numCores) ∧
    (rsvOf ports 0x21 = 0 ∧ 1 ≤ opOf 0x21 ∧ opOf 0x21 ≤ 7 ∧ zeroed.cfg.numCores ≤ coreOf ports 0x21) := by decide

theorem witness_OnlyInitAndTrainingWriteTables :
    zeroed.Inv ∧ nextIs (exec (.update 0 false true 0 0x1000) zeroed) (fun t => decide (t.tbl ≠ zeroed.tbl)) = true ∧
      State.reset.tbl = none ∧ nextIs (exec (.init 0) State.reset) (fun t => decide (t.tbl ≠ State.reset.tbl)) = true ∧
      Instr.wf ports (.update 0 false true 0 0x1000) = true ∧ Instr.wf ports (.init 0) = true :=
  ⟨witness_zeroed_inv, by decide⟩

theorem witness_StatusRegistersChangeOnlyByInitAndFaults :
    zeroed.halted = false ∧ State.reset.halted = false ∧ nextIs (exec (.full 0) zeroed) (fun t => !t.halted) = true ∧
      nextIs (exec (.full 2) zeroed) (fun t => t.halted) = true ∧
      nextIs (exec (.init 0) State.reset) (fun t => t.initDone != State.reset.initDone) = true ∧ Instr.wf ports (.full 0) = true ∧
      Instr.wf ports (.full 2) = true ∧ Instr.wf ports (.init 0) = true := by decide

theorem witness_ResponseFollowsItsLayout :
    nextIs (exec (.predict 0 0 0x1000) zeroed) (fun _ => true) = true ∧ precheck (headerOf (.predict 0 0 0x1000)) zeroed = none ∧
      precheck (headerOf (.predict 2 0 0x1000)) zeroed = some .coreRange ∧
      sramRead zeroed (commandRow zeroed.cfg 0 0x1000) = some (zeroEntry 12) ∧ Instr.wf ports (.predict 0 0 0x1000) = true := by decide

theorem witness_StepRunsTheDecodedCommand :
    cfgOk (offering zeroed 0x3).cfg = true ∧ (offering zeroed 0x3).halted = false ∧
      (offering zeroed 0x3).host = [.cmd 0x3] := by decide

theorem witness_OfferedTableWordRunsNext :
    cfgOk State.reset.cfg = true ∧ State.reset.halted = false ∧ State.reset.cfg.toPortWidths = ⟨32, 64, 8⟩ ∧ 112 ≤ 112 ∧
      decodeTableWord 112 0x12 = some (.update 1 false false 0 0) := by decide

theorem witness_StatusPortsFollowTheirLayout : haltedState.Inv ∧ { haltedState with faultCore := 255 }.Inv :=
  ⟨witness_halted_inv, by decide, by decide, fun m h => by cases h; decide, by decide, by decide, by decide, by decide⟩

theorem witness_WiderHistoryKeepsItsTopBits :
    (⟨3, List.replicate 12 3⟩ : Entry).w.length ≤ 12 ∧ 0xFFFFF < 2 ^ 20 ∧ 0x800 * 2 ^ 20 + 0xFFFFF = 0x800FFFFF := by decide

theorem witness_IdleBlockWaits : cfgOk State.reset.cfg = true ∧ State.reset.halted = false ∧ State.reset.host = [] := by decide

theorem witness_HaltedBlockAcceptsNothing :
    cfgOk haltedState.cfg = true ∧ haltedState.halted = true ∧ haltedState.host = [] ∧
      (offering haltedState 0x0).halted = true ∧ (offering haltedState 0x0).host = [.cmd 0] ∧
      nextIs (step { haltedState with host := [.rst] }) (fun t => !t.halted) = true := by decide

/-- A halted block, one that goes on to a reset, and a run that leads to a halted state. -/
theorem witness_FaultRefutesCompletion :
    (offering haltedState 0x0).halted = true ∧ noReset (offering haltedState 0x0).host ∧
      (∃ t, Sys2Proof.core.run 1 (offering haltedState 0x0) = .next t) ∧
      ∃ t, Sys2Proof.core.run 1 { State.reset with host := [.cmd 0x8, .rst] } = .next t ∧ t.halted = true ∧ t.host = [.rst] := by
  refine ⟨rfl, ?_, ⟨_, rfl⟩, _, rfl, rfl, rfl⟩
  intro ev h
  exact ⟨0x0, List.mem_singleton.1 h⟩

/-- A reserved word, then a reset: the run ends in the reset state and has not completed without a fault (R93). -/
theorem test_reset_hides_no_fault : ¬ CompletesWithoutFault 2 { State.reset with host := [.cmd 0x8, .rst] } := fun h =>
  absurd (h.2 1 _ (by decide) rfl) (by decide)

/-- A host that keeps its duties, after INIT and from it: PREDICT on core 1, then FULL on core 0. -/
theorem witness_DutifulHostMeetsNoFault :
    (⟨some [], true, false, 0, 0, 0, instanceConfig, [.cmd 0x11, .cmd 0x3], none⟩ : State).Inv ∧
      dutiful instanceConfig [.cmd 0x11, .cmd 0x3] ∧ State.reset.initDone = false ∧ opOf 0x0 = 0 ∧ rsvOf ports 0x0 = 0 := by
  refine ⟨⟨by decide, by decide, fun m h => by cases h; decide, by decide, by decide, by decide, by decide⟩, ?_, by decide⟩
  intro ev h
  rcases List.mem_cons.1 h with rfl | h
  · exact ⟨0x11, rfl, by decide⟩
  · exact ⟨0x3, List.mem_singleton.1 h, by decide⟩

theorem witness_HardwareResetRestoresStatus :
    cfgOk haltedState.cfg = true ∧ ({ haltedState with host := [.rst] } : State).host = .rst :: [] ∧
      ∃ w, ({ zeroed with host := [.cmdThenRst 0x3] } : State).host = .cmdThenRst w :: [] := ⟨by decide, rfl, _, rfl⟩

theorem witness_EveryStepKeepsTheInvariant :
    (offering zeroed 0x0000000000001000000000002002).Inv ∧
      ∃ t, step (offering zeroed 0x0000000000001000000000002002) = .next t :=
  ⟨⟨by decide, by decide, fun m h => by cases h; decide, by decide, by decide, by decide, by decide⟩, _, rfl⟩

/-- Each clause: a block that is not halted, a halted block with an event left, an accepted command, a step with a response. -/
theorem witness_EveryAcceptedCommandIsAnswered :
    zeroed.Inv ∧ zeroed.halted = false ∧ (offering haltedState 0x0).host ≠ [] ∧ (offering zeroed 0x3).host = [.cmd 0x3] ∧
      nextIs (step (offering zeroed 0x3)) (fun t => decide (t.rsp ≠ none)) = true :=
  ⟨witness_zeroed_inv, by decide⟩

theorem witness_BeforeInitOnlyInitCompletes :
    State.reset.initDone = false ∧ State.reset.halted = false ∧ (offering State.reset 0x0).host = [.cmd 0x0] ∧
      nextIs (step (offering State.reset 0x0)) (fun t => !t.halted) = true := by decide

theorem witness_CommandsOnDifferentCoresCommute :
    zeroed.initDone = true ∧ zeroed.tbl = some [] ∧ Memory.wf (zeroEntry 12) [] = true ∧ carriesCore (.update 0 false true 0 0) = true ∧
      carriesCore (.update 1 true true 0 0) = true ∧ (headerOf (.update 1 true true 0 0)).core < zeroed.cfg.numCores ∧
      (headerOf (.update 0 false true 0 0)).core ≠ (headerOf (.update 1 true true 0 0)).core := by decide

/-- Two blocks that agree on core 0's table, where nothing is listed, and differ on core 1's (row 4096 and above). -/
theorem witness_CoresShareNoState :
    zeroed.cfg = (withEntry 4096 1 1).cfg ∧ zeroed.tbl ≠ (withEntry 4096 1 1).tbl ∧
      Memory.wf (zeroEntry 12) [(4096, ⟨1, List.replicate 12 1⟩)] = true ∧ carriesCore (.predict 0 0 0) = true ∧
      (headerOf (.predict 0 0 0)).core < zeroed.cfg.numCores ∧
      ∀ j, j < 2 ^ zeroed.cfg.H → sramRead zeroed (rowOf zeroed.cfg.H 0 j) = sramRead (withEntry 4096 1 1) (rowOf zeroed.cfg.H 0 j) := by
  refine ⟨rfl, by decide, by decide, rfl, by decide, fun j hj => ?_⟩
  have hj' : j < 4096 := hj
  have hne : ¬ 4096 = rowOf instanceConfig.H 0 j := by
    simp only [rowOf, Nat.zero_mul]
    omega
  simp only [sramRead, zeroed, withEntry, State.reset, Option.map_some, Memory.read]
  rw [if_neg hne]
  rfl

theorem witness_FreshCorePredictsTaken :
    Instr.wf ports (.update 0 false true 0 0) = true ∧ freshCore zeroed 1 ∧ 1 < zeroed.cfg.numCores ∧ State.reset.initDone = false ∧
      nextIs (exec (.init 0) State.reset) (fun _ => true) = true ∧
      nextIs (exec (.update 0 false true 0 0) zeroed) (fun _ => true) = true ∧
      ∀ core outcome hist addr, core = 1 → Instr.update 0 false true 0 0 ≠ .update core outcome true hist addr := by
  refine ⟨by decide, ⟨rfl, fun _ _ => rfl⟩, by decide, rfl, by decide, by decide, ?_⟩
  intro core outcome hist addr h heq
  cases heq
  exact absurd h (by decide)

end Sys2Proof.Tests
end

namespace Sys2Proof.Machine

/-- No instruction writes a parameter: each of its outcomes is an update of the tables, the status registers or the response
(00_scope.md R9). -/
theorem exec_next_cfg {i : Instr} {s t : State} (hi : i.inRow = true) (h : exec i s = .next t) : t.cfg = s.cfg := by
  obtain ⟨c, -, rfl⟩ | ⟨-, effect⟩ := exec_next_cases hi h
  · exact raiseFault_cfg c (headerOf i) s
  · obtain ⟨core, -, rfl⟩ | ⟨core, hist, addr, e, -, -, rfl⟩ | ⟨core, outcome, hist, addr, e, -, -, rfl⟩ | ⟨-, -, -, rfl⟩ := effect
    · rw [respond_cfg, zeroTables_cfg]
    · rw [respond_cfg]
    · rw [respond_cfg, sramWrite_cfg]
    · rw [respond_cfg]

/-- No event of the host writes a parameter: an idle step and a turned-away offer only take the event, an accepted word is an
instruction, and `rst` resets the status registers alone (00_scope.md R9; 70_reset_and_hazards.md R103). -/
theorem step_next_cfg {s t : State} (h : step s = .next t) : t.cfg = s.cfg := by
  obtain ⟨-, ⟨-, -, rfl⟩ | ⟨w, rest, -, -, rfl⟩ | ⟨w, rest, -, -, accepted⟩ | ⟨rest, -, rfl⟩⟩ := step_next_cases h
  · exact takeEvent_cfg [] s
  · exact takeEvent_cfg rest s
  · rw [exec_next_cfg (decode_inRow _ w) accepted, takeEvent_cfg]
  · rw [hardReset_cfg, takeEvent_cfg]

end Sys2Proof.Machine

/-- Settles O8, by the cases of the host's next event. -/
theorem parametersNeverChange : Obligations.ParametersNeverChange :=
  fun _ _ h => Sys2Proof.Machine.step_next_cfg h

namespace Sys2Proof

open Sys2Proof.Spec

/-! The decoder by the fields of R47 read with division and remainder, at every choice of the port widths (30_encoding.md R52). -/

theorem PortWidths.ctlW_eq_ctrl (p : PortWidths) : p.ctlW = ctrl p := by
  unfold PortWidths.ctlW ctrl
  omega

@[simp] theorem fieldOp_toNat_eq_opOf (w : CmdWord) : (fieldOp w).toNat = opOf w := fieldOp_toNat w

@[simp] theorem fieldCore_eq_coreOf (p : PortWidths) (w : CmdWord) : fieldCore p w = coreOf p w := fieldAt_eq w 4 p.cidW

@[simp] theorem fieldOutcome_eq_outcomeOf (p : PortWidths) (w : CmdWord) : fieldOutcome p w = decide (outcomeOf p w = 1) := by
  rw [fieldOutcome, testBit_eq, p.ctlW_eq_ctrl, outcomeOf]

@[simp] theorem fieldCond_eq_condOf (p : PortWidths) (w : CmdWord) : fieldCond p w = decide (condOf p w = 1) := by
  rw [fieldCond, testBit_eq, p.ctlW_eq_ctrl, condOf]

@[simp] theorem fieldRsv_toNat_eq_rsvOf (p : PortWidths) (w : CmdWord) : (fieldRsv p w).toNat = rsvOf p w := by
  rw [fieldRsv_toNat, p.ctlW_eq_ctrl, rsvOf]

@[simp] theorem fieldHist_eq_histOf (p : PortWidths) (w : CmdWord) : fieldHist p w = histOf p w := by
  rw [fieldHist, fieldAt_eq, p.ctlW_eq_ctrl, histOf]

@[simp] theorem fieldAddr_eq_addrOf (p : PortWidths) (w : CmdWord) : fieldAddr p w = addrOf p w := by
  rw [fieldAddr, fieldAt_eq, p.ctlW_eq_ctrl, addrOf]

theorem fieldRsv_eq_zero_iff {p : PortWidths} {w : CmdWord} : fieldRsv p w = 0 ↔ rsvOf p w = 0 := by
  rw [← fieldRsv_toNat_eq_rsvOf, ← BitVec.toNat_inj]
  rfl

/-- A word whose `RSV` is not 0 is the reserved-`RSV` row, whatever its `OP` (R49). -/
theorem decode_of_rsv_ne {p : PortWidths} {w : CmdWord} (h : rsvOf p w ≠ 0) :
    decode p w = .reservedRsv (fieldRsv p w) (fieldOp w) (coreOf p w) := by
  rw [decode, if_neg (mt fieldRsv_eq_zero_iff.1 h), fieldCore_eq_coreOf]

section Legal
variable {p : PortWidths} {w : CmdWord} (hrsv : rsvOf p w = 0)
include hrsv

/-- A word with `RSV = 0` is what its `OP` says (R48). -/
theorem decode_of_rsv_zero : decode p w = decodeOp p w := if_pos (fieldRsv_eq_zero_iff.2 hrsv)

theorem decode_of_op_zero (hop : opOf w = 0) : decode p w = .init (coreOf p w) := by
  simp [decode_of_rsv_zero hrsv, decodeOp, hop]

theorem decode_of_op_one (hop : opOf w = 1) : decode p w = .predict (coreOf p w) (histOf p w) (addrOf p w) := by
  simp [decode_of_rsv_zero hrsv, decodeOp, hop]

theorem decode_of_op_two (hop : opOf w = 2) :
    decode p w = .update (coreOf p w) (decide (outcomeOf p w = 1)) (decide (condOf p w = 1)) (histOf p w) (addrOf p w) := by
  simp [decode_of_rsv_zero hrsv, decodeOp, hop]

theorem decode_of_op_three (hop : opOf w = 3) : decode p w = .full (coreOf p w) := by
  simp [decode_of_rsv_zero hrsv, decodeOp, hop]

theorem decode_of_op_four (hop : opOf w = 4) : decode p w = .timestamp (coreOf p w) := by
  simp [decode_of_rsv_zero hrsv, decodeOp, hop]

theorem decode_of_op_five (hop : opOf w = 5) : decode p w = .recover (coreOf p w) := by
  simp [decode_of_rsv_zero hrsv, decodeOp, hop]

theorem decode_of_op_six (hop : opOf w = 6) : decode p w = .specUpdate (coreOf p w) := by
  simp [decode_of_rsv_zero hrsv, decodeOp, hop]

theorem decode_of_op_seven (hop : opOf w = 7) : decode p w = .retire (coreOf p w) := by
  simp [decode_of_rsv_zero hrsv, decodeOp, hop]

/-- An `OP` of 0x8 to 0xF is the reserved-`OP` row (R49). -/
theorem decode_of_eight_le_op (hop : 8 ≤ opOf w) : decode p w = .reservedOp (fieldOp w) (coreOf p w) := by
  rw [decode_of_rsv_zero hrsv, ← fieldCore_eq_coreOf]
  rw [← fieldOp_toNat_eq_opOf] at hop
  unfold decodeOp
  split
  iterate 8 omega
  rfl

end Legal

/-- An illegal word is one of the two reserved rows (R52). -/
theorem decode_of_illegal {p : PortWidths} {w : CmdWord} (h : rsvOf p w ≠ 0 ∨ 8 ≤ opOf w) :
    decode p w = .reservedOp (fieldOp w) (coreOf p w) ∨ decode p w = .reservedRsv (fieldRsv p w) (fieldOp w) (coreOf p w) := by
  by_cases hrsv : rsvOf p w = 0
  · exact Or.inl (decode_of_eight_le_op hrsv (h.resolve_left (not_not_intro hrsv)))
  · exact Or.inr (decode_of_rsv_ne hrsv)

section ByteCore
variable {p : PortWidths} (hcid : p.cidW = 8) (w : CmdWord)
include hcid

/-- With an 8-bit `CORE` the control word has 16 bits (R47). -/
theorem ctrl_of_cidW_eight : ctrl p = 16 := by rw [ctrl, hcid]

theorem coreOf_eq_bits : coreOf p w = bits w 11 4 := by simp [coreOf, hcid, bits]

theorem outcomeOf_eq_bits : outcomeOf p w = bits w 12 12 := by simp [outcomeOf, ctrl_of_cidW_eight hcid, bits]

theorem condOf_eq_bits : condOf p w = bits w 13 13 := by simp [condOf, ctrl_of_cidW_eight hcid, bits]

theorem rsvOf_eq_bits : rsvOf p w = bits w 15 14 := by simp [rsvOf, ctrl_of_cidW_eight hcid, bits]

end ByteCore

theorem opOf_eq_bits (w : CmdWord) : opOf w = bits w 3 0 := by simp [opOf, bits]

end Sys2Proof

section
open Sys2Proof Sys2Proof.Spec

/-- Settles O2: the decoder's cases at every width, read at the 16-bit control word that `CID_W = 8` gives. -/
theorem decodeFollowsTheFieldLayout : Obligations.DecodeFollowsTheFieldLayout := by
  intro p w hcid
  have hhist : w / 2 ^ 16 % 2 ^ p.histW = histOf p w := by rw [histOf, ctrl_of_cidW_eight hcid]
  have haddr : w / 2 ^ (16 + p.histW) % 2 ^ p.addrW = addrOf p w := by rw [addrOf, ctrl_of_cidW_eight hcid]
  rw [hhist, haddr, ← coreOf_eq_bits hcid, ← outcomeOf_eq_bits hcid, ← condOf_eq_bits hcid, ← rsvOf_eq_bits hcid, ← opOf_eq_bits]
  refine ⟨fun illegal => ?_, fun hrsv => ?_⟩
  · exact (decode_of_illegal illegal).imp (fun h => ⟨_, _, h⟩) (fun h => ⟨_, _, _, h⟩)
  · exact ⟨decode_of_op_zero hrsv, decode_of_op_one hrsv, decode_of_op_two hrsv, decode_of_op_three hrsv,
      decode_of_op_four hrsv, decode_of_op_five hrsv, decode_of_op_six hrsv, decode_of_op_seven hrsv⟩

end

namespace Sys2Proof.Machine

/-! The bits of a response word (30_encoding.md R53), and the response of every command (R54). -/

section RspWord
variable (taken full : Bool) (fault : BitVec 3)

/-- Bit 0 is `TAKEN`, bit 1 is `FULL`, and from bit 2 up stands `FAULT`. -/
theorem getLsbD_rspWord (k : Nat) :
    (rspWord taken full fault).getLsbD k = if k = 0 then taken else if k = 1 then full else fault.getLsbD (k - 2) := by
  rw [rspWord, BitVec.getLsbD_append, BitVec.getLsbD_append, BitVec.getLsbD_append]
  match k with
  | 0 => simp
  | 1 => simp
  | j + 2 => simpa using BitVec.lt_of_getLsbD

theorem extractLsb'_rspWord : (rspWord taken full fault).extractLsb' 2 3 = fault := by
  refine BitVec.eq_of_getLsbD_eq fun k hk => ?_
  simp [getLsbD_rspWord, hk, show 2 + k ≠ 1 by omega]

/-- Bits [7:5] are reserved and 0. -/
theorem getLsbD_rspWord_of_five_le {k : Nat} (hk : 5 ≤ k) : (rspWord taken full fault).getLsbD k = false := by
  rw [getLsbD_rspWord, if_neg (by omega), if_neg (by omega), BitVec.getLsbD_of_ge _ _ (by omega)]

end RspWord

/-- A delivered response that is not "full", field by field (R53). -/
theorem rspWord_fields {r : Option RspWord} {taken : Bool} {fault : BitVec 3} (h : r = some (rspWord taken false fault)) :
    ∃ v, r = some v ∧ v.getLsbD 5 = false ∧ v.getLsbD 6 = false ∧ v.getLsbD 7 = false ∧ v.getLsbD 1 = false ∧
      v.extractLsb' 2 3 = fault ∧ v.getLsbD 0 = taken :=
  ⟨_, h, getLsbD_rspWord_of_five_le _ _ _ (by decide), getLsbD_rspWord_of_five_le _ _ _ (by decide),
    getLsbD_rspWord_of_five_le _ _ _ (by decide), getLsbD_rspWord _ _ _ 1, extractLsb'_rspWord _ _ _, getLsbD_rspWord _ _ _ 0⟩

/-- The response of an instruction's next state: a fault's code, PREDICT's direction, or 0. -/
theorem exec_next_rsp {i : Instr} {s t : State} (hi : i.inRow = true) (h : exec i s = .next t) :
    (∃ c, precheck (headerOf i) s = some c ∧ t.rsp = some (rspWord false false c.code)) ∨
    (precheck (headerOf i) s = none ∧
      ((∃ core hist addr e, i = .predict core hist addr ∧ sramRead s (commandRow s.cfg core addr) = some e ∧
          t.rsp = some (rspWord (direction (score s.cfg.histW e hist)) false 0)) ∨
       ((∀ core hist addr, i ≠ .predict core hist addr) ∧ t.rsp = some (rspWord false false 0)))) := by
  obtain ⟨c, hp, rfl⟩ | ⟨hp, effect⟩ := exec_next_cases hi h
  · exact Or.inl ⟨c, hp, rfl⟩
  · refine Or.inr ⟨hp, ?_⟩
    obtain ⟨core, rfl, rfl⟩ | ⟨core, hist, addr, e, rfl, he, rfl⟩ | ⟨core, outcome, hist, addr, e, rfl, -, rfl⟩ |
      ⟨-, hne, -, rfl⟩ := effect
    · exact Or.inr ⟨nofun, rfl⟩
    · exact Or.inl ⟨core, hist, addr, e, rfl, he, rfl⟩
    · exact Or.inr ⟨nofun, rfl⟩
    · exact Or.inr ⟨hne, rfl⟩

end Sys2Proof.Machine

section
open Sys2Proof Sys2Proof.Machine

/-- Settles O36, by the three responses a command can deliver. -/
theorem responseFollowsItsLayout : Obligations.ResponseFollowsItsLayout := by
  intro i s t hi h
  obtain ⟨c, hp, hrsp⟩ | ⟨hp, ⟨core, hist, addr, e, rfl, he, hrsp⟩ | ⟨hne, hrsp⟩⟩ := exec_next_rsp (Instr.inRow_of_wf hi) h
  all_goals
    obtain ⟨v, hv, h5, h6, h7, hfull, hfault, htaken⟩ := rspWord_fields hrsp
    refine ⟨v, hv, h5, h6, h7, hfull, fun c' hc' => ?_, fun hpass => ?_⟩
  case inl.refine_1 =>
    cases hp.symm.trans hc'
    exact ⟨hfault, htaken⟩
  case inl.refine_2 => cases hp.symm.trans hpass
  case inr.inl.refine_1 => cases hp.symm.trans hc'
  case inr.inl.refine_2 =>
    refine ⟨hfault, fun hne => absurd rfl (hne core hist addr), ?_⟩
    rintro _ _ _ e' ⟨⟩ he'
    cases he.symm.trans he'
    exact htaken
  case inr.inr.refine_1 => cases hp.symm.trans hc'
  case inr.inr.refine_2 => exact ⟨hfault, fun _ => htaken, fun core hist addr _ hi' => absurd hi' (hne core hist addr)⟩

end

namespace Sys2Proof.Machine

/-! The lookup: when two addresses alias (40_lookup.md R58), and the range of the score and of every partial sum of it
(R61 to R63). -/

/-- Two addresses select the same slot exactly when they agree on bits [H+1:2] (R58). -/
theorem index_eq_index_iff {H : Nat} {a b : Addr} :
    index H a = index H b ↔ ∀ k, 2 ≤ k → k < H + 2 → a.testBit k = b.testBit k := by
  constructor
  · intro h k hk hkH
    obtain ⟨j, rfl⟩ := Nat.exists_eq_add_of_le' hk
    have hj : j < H := Nat.lt_of_add_lt_add_right hkH
    simpa [testBit_index, hj] using congrArg (Nat.testBit · j) h
  · intro h
    refine Nat.eq_of_testBit_eq fun j => ?_
    rw [testBit_index, testBit_index]
    by_cases hj : j < H
    · rw [h (j + 2) (Nat.le_add_left 2 j) (Nat.add_lt_add_right hj 2)]
    · simp [hj]

section Fits
variable {H histW : Nat} {e : Entry} {hist : Hist} (he : e.fits H = true)
include he

theorem products_length_of_fits (histW : Nat) (hist : Hist) : (products histW e hist).length = H := by
  rw [products_length, (Entry.fits_iff.1 he).1]

/-- The bias and any `k` of the products sum to a number in [-128(k+1), 127 + 128k] (R63). -/
theorem partialSum_mem {part : List Int} (hpart : ∀ p ∈ part, p ∈ products histW e hist) :
    -128 * ((part.length : Int) + 1) ≤ e.bias + part.sum ∧ e.bias + part.sum ≤ 127 + 128 * (part.length : Int) := by
  obtain ⟨-, ⟨hlo, hhi⟩, -⟩ := Entry.fits_iff.1 he
  obtain ⟨hslo, hshi⟩ := sum_mem fun p hp => products_mem he p (hpart p hp)
  constructor <;> omega

/-- The range of the score (R62). -/
theorem score_mem : -128 * ((H : Int) + 1) ≤ score histW e hist ∧ score histW e hist ≤ 127 + 128 * (H : Int) := by
  simpa only [score, products_length_of_fits he] using partialSum_mem he fun _ hp => hp

end Fits

theorem accWMin_eq (H : Nat) : accWMin H = 8 + Nat.clog 2 (H + 1) := by
  rw [accWMin, ceilLog2_eq_clog (Nat.le_add_left 1 H)]

/-- What `ACC_W_MIN` is chosen for: a signed word of that width holds 128(H + 1) (R63). -/
theorem le_two_pow_of_accWMin_le {H n : Nat} (hn : accWMin H ≤ n) : 128 * ((H : Int) + 1) ≤ 2 ^ (n - 1) := by
  rw [accWMin_eq] at hn
  have h : 128 * (H + 1) ≤ 2 ^ (n - 1) :=
    calc 128 * (H + 1) ≤ 2 ^ 7 * 2 ^ Nat.clog 2 (H + 1) := Nat.mul_le_mul_left _ (Nat.le_pow_clog one_lt_two _)
      _ = 2 ^ (7 + Nat.clog 2 (H + 1)) := (Nat.pow_add _ _ _).symm
      _ ≤ 2 ^ (n - 1) := Nat.pow_le_pow_right two_pos (by omega)
  exact_mod_cast h

section Accumulator
variable {H n histW : Nat} {e : Entry} {hist : Hist} (he : e.fits H = true) (hn : accWMin H ≤ n)
include he hn

/-- A sum of the bias and at most `H` products fits in `ACC_W_MIN(H)` signed bits or more (R63). -/
theorem partialSum_fits_width {part : List Int} (hpart : ∀ p ∈ part, p ∈ products histW e hist) (hlen : part.length ≤ H) :
    -(2 ^ (n - 1) : Int) ≤ e.bias + part.sum ∧ e.bias + part.sum < 2 ^ (n - 1) := by
  obtain ⟨hlo, hhi⟩ := partialSum_mem he hpart
  have hw := le_two_pow_of_accWMin_le hn
  constructor <;> omega

/-- The wrapping accumulator ends with the exact score (R63). -/
theorem accumulate_toInt : (accumulate n histW e hist).toInt = score histW e hist := by
  obtain ⟨hlo, hhi⟩ := partialSum_fits_width he hn (fun _ hp => hp) (products_length_of_fits he histW hist).le
  have hpos : 0 < n := lt_of_lt_of_le (Nat.add_pos_left (by decide) _) hn
  rw [accumulate_eq, score, BitVec.toInt_ofInt_eq_self hpos hlo hhi]

end Accumulator

theorem histSign_zero (histW i : Nat) : histSign histW 0 i = -1 := by simp [histSign]

theorem histSign_ones {histW i : Nat} (hi : i < histW) : histSign histW (2 ^ histW - 1) i = 1 := by
  rw [histSign, Nat.testBit_two_pow_sub_one, decide_eq_true (by omega), if_pos rfl]

/-- An Entry of equal weights against a history that gives every weight the same sign. -/
theorem score_replicate {histW H : Nat} {hist : Hist} {x : Int} (hx : ∀ i < H, histSign histW hist i = x) (b v : Int) :
    score histW ⟨b, List.replicate H v⟩ hist = b + H * (v * x) := by
  have hterm : ∀ i ∈ Finset.range H, (List.replicate H v).getD i 0 * histSign histW hist i = v * x := by
    intro i hi
    have hiH := Finset.mem_range.1 hi
    rw [hx i hiH, List.getD_replicate _ hiH]
  rw [score_eq_sum, List.length_replicate, Finset.sum_congr rfl hterm, Finset.sum_const, Finset.card_range, nsmul_eq_mul]

theorem replicate_fits (H : Nat) {b v : Int} (hb : -128 ≤ b ∧ b ≤ 127) (hv : -128 ≤ v ∧ v ≤ 127) :
    (⟨b, List.replicate H v⟩ : Entry).fits H = true :=
  Entry.fits_iff.2 ⟨List.length_replicate, hb, fun _ hu => List.eq_of_mem_replicate hu ▸ hv⟩

end Sys2Proof.Machine

section
open Sys2Proof Sys2Proof.Machine Sys2Proof.Spec

/-- Settles O9: every partial sum is made of the bias and at most `H` products, and the width is chosen for that many. -/
theorem accumulatorNeverOverflows : Obligations.AccumulatorNeverOverflows := by
  refine ⟨fun H histW n e hist he hn => ⟨accumulate_toInt he hn, fun order part hperm hpre => ?_⟩, accWMin_eq, by decide, rfl⟩
  have hpart : ∀ p ∈ part, p ∈ products histW e hist := fun p hp => hperm.subset (hpre.subset hp)
  have hlen : part.length ≤ H := by
    rw [← products_length_of_fits he histW hist, ← hperm.length_eq]
    exact hpre.length_le
  obtain ⟨hlo, hhi⟩ := partialSum_mem he hpart
  exact ⟨hlo, hhi, partialSum_fits_width he hn hpart hlen⟩

/-- Settles O11: both special cases restrict the agreement of addresses to bits [H+1:2]. -/
theorem aliasingIsAgreementOnIndexBits : Obligations.AliasingIsAgreementOnIndexBits :=
  ⟨fun _ _ _ => index_eq_index_iff,
    fun _ _ _ h => index_eq_index_iff.2 fun k hk _ => h k hk,
    fun _ _ _ h => index_eq_index_iff.2 fun k _ hk => h k hk,
    by decide⟩

/-- Settles O12, by the score as a sum over weight indexes. -/
theorem scoreIsTheExactSum : Obligations.ScoreIsTheExactSum := by
  refine fun histW e hist => ⟨score_eq_sum histW e hist, fun order hperm => ?_⟩
  rw [score, hperm.sum_eq]

/-- Settles O13: the range of a sum of `H` products, and an Entry of equal weights for each end. -/
theorem scoreRangeIsTight : Obligations.ScoreRangeIsTight := by
  refine ⟨fun H histW e hist he => score_mem he, fun H histW => ⟨?_, ?_⟩, fun H histW hH => ⟨?_, ?_⟩⟩
  · exact replicate_fits H (by decide) (by decide)
  · rw [score_replicate fun i _ => histSign_zero histW i]
    ring
  · exact replicate_fits H (by decide) (by decide)
  · rw [score_replicate fun i hi => histSign_ones (hi.trans_le hH)]
    ring

/-- Settles O10, by the indexer as division and remainder. -/
theorem indexKeepsBitsAboveAlignment : Obligations.IndexKeepsBitsAboveAlignment :=
  ⟨fun H addr => ⟨index_eq H addr, index_lt H addr⟩, fun addr => index_eq 12 addr, by decide⟩

/-- Settles O14: the comparison is with 0 and not strict. -/
theorem zeroScorePredictsTaken : Obligations.ZeroScorePredictsTaken :=
  ⟨fun _ => ⟨direction_eq_true_iff.2, direction_eq_false_iff.2⟩, direction_eq_true_iff.2 le_rfl⟩

end

namespace Sys2Proof.Machine

/-! Training: the clamp and the gate case by case (41_training.md R68, R71), and why an open gate always changes the Entry
(R77). -/

theorem saturate_of_lt {v : Int} (h : v < -128) : saturate v = -128 := if_pos h

theorem saturate_of_gt {v : Int} (h : 127 < v) : saturate v = 127 := by
  rw [saturate, if_neg (by omega), if_pos h]

@[simp] theorem target_true : target true = 1 := rfl

@[simp] theorem target_false : target false = -1 := rfl

/-- A misprediction opens the gate at every score (R71). -/
theorem gate_of_miss (theta : Nat) (s : Int) : gate theta s (!direction s) = true :=
  gate_eq_true_iff.2 (Or.inl (Bool.not_ne_self (direction s)).symm)

/-- A correct prediction opens the gate exactly below `THETA` (R71). -/
theorem gate_direction_eq_true_iff {theta : Nat} {s : Int} : gate theta s (direction s) = true ↔ |s| < (theta : Int) := by
  rw [gate_eq_true_iff, Int.abs_eq_natAbs, Nat.cast_lt]
  exact or_iff_right (not_not_intro rfl)

/-- A score beyond `THETA` on the outcome's side closes the gate. -/
theorem gate_of_lt_mul_target {theta : Nat} {s : Int} {outcome : Bool} (h : (theta : Int) < s * target outcome) :
    gate theta s outcome = false := by
  rw [← Bool.not_eq_true, gate_eq_true_iff, not_or, not_not, not_lt]
  cases outcome with
  | true =>
    rw [target_true] at h
    exact ⟨direction_eq_true_iff.2 (by omega), by omega⟩
  | false =>
    rw [target_false] at h
    exact ⟨direction_eq_false_iff.2 (by omega), by omega⟩

/-- A field that a step `d` leaves as it is stands at its bound, 127 or -128, in the direction of `d` (R69). -/
theorem le_mul_of_saturate_add_eq {v d : Int} (hd : d = 1 ∨ d = -1) (h : saturate (v + d) = v) : 127 ≤ v * d := by
  unfold saturate at h
  rcases hd with rfl | rfl <;> split_ifs at h <;> omega

theorem histSign_mul_target_eq_or (histW : Nat) (hist : Hist) (i : Nat) (outcome : Bool) :
    histSign histW hist i * target outcome = 1 ∨ histSign histW hist i * target outcome = -1 := by
  rcases histSign_eq_or histW hist i with hx | hx <;> rcases target_eq_or outcome with ht | ht <;> simp [hx, ht]

/-- An Entry that an open gate leaves as it is stands at its bounds in every field, so its score is far on the outcome's
side (R77). -/
theorem le_score_mul_target_of_train_eq {histW theta : Nat} {e : Entry} {hist : Hist} {outcome : Bool}
    (hopen : gate theta (score histW e hist) outcome = true) (hsame : train histW theta e hist outcome = e) :
    127 * ((e.w.length : Int) + 1) ≤ score histW e hist * target outcome := by
  have hbias : 127 ≤ e.bias * target outcome :=
    le_mul_of_saturate_add_eq (target_eq_or outcome) (by rw [← train_bias_of_open hopen, hsame])
  have hw : ∀ i ∈ Finset.range e.w.length, 127 ≤ e.w.getD i 0 * histSign histW hist i * target outcome := by
    intro i hi
    rw [mul_assoc]
    exact le_mul_of_saturate_add_eq (histSign_mul_target_eq_or histW hist i outcome)
      (by rw [← train_getD_of_open hopen (Finset.mem_range.1 hi), hsame])
  have hsum := Finset.card_nsmul_le_sum _ _ _ hw
  rw [Finset.card_range, nsmul_eq_mul] at hsum
  rw [score_eq_sum, add_mul, Finset.sum_mul]
  linarith

/-- Training changes the Entry exactly when the gate is open, for every `THETA` below the score of saturated fields (R77). -/
theorem train_ne_iff {histW theta : Nat} {e : Entry} {hist : Hist} {outcome : Bool} (htheta : theta < 127 * (e.w.length + 1)) :
    train histW theta e hist outcome ≠ e ↔ gate theta (score histW e hist) outcome = true := by
  constructor
  · intro hne
    by_contra hclosed
    exact hne (train_of_closed (Bool.eq_false_of_not_eq_true hclosed))
  · intro hopen hsame
    have hscore := le_score_mul_target_of_train_eq hopen hsame
    have hclosed : gate theta (score histW e hist) outcome = false := gate_of_lt_mul_target (by omega)
    exact Bool.false_ne_true (hclosed.symm.trans hopen)

end Sys2Proof.Machine

section
open Sys2Proof Sys2Proof.Machine

/-- Settles O18, by what an open gate does to the bias and to each weight. -/
theorem trainMovesEveryFieldTowardsOutcome : Obligations.TrainMovesEveryFieldTowardsOutcome :=
  fun _ _ _ _ _ => ⟨train_of_closed, fun hopen =>
    ⟨train_bias_of_open hopen, train_w_length .., fun _ hi => train_getD_of_open hopen hi⟩⟩

/-- Settles O20: `thetaOf H` is below the score of an Entry saturated in every field. -/
theorem trainChangesEntryExactlyWhenGateOpens : Obligations.TrainChangesEntryExactlyWhenGateOpens := by
  intro H histW e hist outcome _ he
  obtain ⟨hlen, -, -⟩ := Entry.fits_iff.1 he
  exact train_ne_iff (by rw [hlen, thetaOf]; omega)

/-- Settles O15, by the three cases of the clamp. -/
theorem saturateClampsToEightBits : Obligations.SaturateClampsToEightBits :=
  ⟨fun _ => ⟨saturate_of_lt, saturate_of_gt, saturate_of_mem⟩, saturate_of_gt (by decide)⟩

/-- Settles O17: the gate of a correct prediction is the comparison with `THETA`, which is 37 at `H = 12`. -/
theorem gateTrainsOnMissOrLowMargin : Obligations.GateTrainsOnMissOrLowMargin := by
  refine ⟨fun theta s => ⟨gate_of_miss theta s, gate_direction_eq_true_iff⟩, fun s => ?_⟩
  rw [gate_direction_eq_true_iff, show thetaOf 12 = 37 from rfl, abs_lt]
  omega

end

namespace Sys2Proof.Machine

open Sys2Proof.Spec

/-! The fault entry (60_exceptions.md R92) as `precheck` reaches it, and when a command that carries a core faults (R89, R90). -/

/-- The response of a fault carries its code in bits [4:2] alone (R54). -/
theorem rspWord_code_eq_ofNat (c : FaultCode) : rspWord false false c.code = BitVec.ofNat 8 (4 * c.code.toNat) := by
  cases c with
  | illegalCmd => rfl
  | notInit => rfl
  | reinit => rfl
  | coreRange => rfl

theorem raiseFault_eq_faultEntry (c : FaultCode) (h : Header) (s : State) :
    raiseFault c h s = faultEntry s c.code.toNat h.op.toNat h.core := by
  rw [raiseFault, faultEntry, rspWord_code_eq_ofNat, BitVec.ofNat_toNat, BitVec.ofNat_toNat, BitVec.setWidth_eq, BitVec.setWidth_eq]

/-- A command that `precheck` stops takes the fault entry of the code it reports (R92). -/
theorem exec_eq_faultEntry {i : Instr} {s : State} {c : FaultCode} (hi : i.inRow = true)
    (h : precheck (headerOf i) s = some c) :
    exec i s = .next (faultEntry s c.code.toNat (headerOf i).op.toNat (headerOf i).core) := by
  rw [exec_of_fault hi h, raiseFault_eq_faultEntry]

theorem precheck_eq_notInit {i : Instr} {s : State} (hi : carriesCore i = true) (hinit : s.initDone = false) :
    precheck (headerOf i) s = some .notInit := by
  rw [precheck_of_carriesCore hi, if_pos hinit]

theorem precheck_eq_coreRange {i : Instr} {s : State} (hi : carriesCore i = true) (hinit : s.initDone = true)
    (hcore : s.cfg.numCores ≤ (headerOf i).core) : precheck (headerOf i) s = some .coreRange := by
  rw [precheck_of_carriesCore hi, if_neg (by simp [hinit]), if_pos hcore]

end Sys2Proof.Machine

section
open Sys2Proof Sys2Proof.Machine

/-- Settles O31: before INIT, `precheck` of a command that carries a core reports NOT_INIT. -/
theorem useBeforeInitFaults : Obligations.UseBeforeInitFaults :=
  fun _ _ hi hinit => exec_eq_faultEntry (inRow_of_carriesCore hi) (precheck_eq_notInit hi hinit)

/-- Settles O32: after INIT, `precheck` of a command whose core does not exist reports CORE_RANGE. -/
theorem coreOutOfRangeFaults : Obligations.CoreOutOfRangeFaults :=
  fun _ _ hi hinit hcore => exec_eq_faultEntry (inRow_of_carriesCore hi) (precheck_eq_coreRange hi hinit hcore)

end

namespace Sys2Proof

open Sys2Proof.Spec

/-! The word of an instruction: its header, its operands, and that the decoder reads it back (30_encoding.md R47, R52). -/

/-- The word of an instruction whose operands fit carries the instruction's own `OP`, `RSV` and `CORE`. -/
theorem encode_header (i : Instr) : Laws.EncodedHeader.Statement i := by
  cases i with
  | init core => exact Laws.EncodedHeader.init core
  | predict core hist addr => exact Laws.EncodedHeader.predict core hist addr
  | update core outcome cond hist addr => exact Laws.EncodedHeader.update core outcome cond hist addr
  | full core => exact Laws.EncodedHeader.full core
  | timestamp core => exact Laws.EncodedHeader.timestamp core
  | recover core => exact Laws.EncodedHeader.recover core
  | specUpdate core => exact Laws.EncodedHeader.specUpdate core
  | retire core => exact Laws.EncodedHeader.retire core
  | reservedOp op core => exact Laws.EncodedHeader.reservedOp op core
  | reservedRsv rsv op core => exact Laws.EncodedHeader.reservedRsv rsv op core

section Encoded
variable {p : PortWidths} {i : Instr} (hi : i.fits p = true)
include hi

theorem fieldOp_encode : fieldOp (encode p i) = (Machine.headerOf i).op := congrArg Header.op (encode_header i p hi)

theorem fieldRsv_encode : fieldRsv p (encode p i) = (Machine.headerOf i).rsv := congrArg Header.rsv (encode_header i p hi)

theorem coreOf_encode : coreOf p (encode p i) = (Machine.headerOf i).core := by
  rw [← fieldCore_eq_coreOf]
  exact congrArg Header.core (encode_header i p hi)

theorem opOf_encode : opOf (encode p i) = (Machine.headerOf i).op.toNat := by
  rw [← fieldOp_toNat_eq_opOf, fieldOp_encode hi]

theorem rsvOf_encode : rsvOf p (encode p i) = (Machine.headerOf i).rsv.toNat := by
  rw [← fieldRsv_toNat_eq_rsvOf, fieldRsv_encode hi]

end Encoded

theorem Instr.fits_predict_iff {p : PortWidths} {core : CoreId} {hist : Hist} {addr : Addr} :
    (Instr.predict core hist addr).fits p = true ↔ core < 2 ^ p.cidW ∧ hist < 2 ^ p.histW ∧ addr < 2 ^ p.addrW := by
  simp [Instr.fits, and_assoc]

theorem Instr.fits_update_iff {p : PortWidths} {core : CoreId} {outcome cond : Bool} {hist : Hist} {addr : Addr} :
    (Instr.update core outcome cond hist addr).fits p = true ↔
      core < 2 ^ p.cidW ∧ hist < 2 ^ p.histW ∧ addr < 2 ^ p.addrW := by
  simp [Instr.fits, and_assoc]

/-- Decoding a word of UPDATE gives every operand back. -/
theorem decode_encode_update {p : PortWidths} {core : CoreId} {outcome cond : Bool} {hist : Hist} {addr : Addr}
    (hi : (Instr.update core outcome cond hist addr).fits p = true) :
    decode p (encode p (.update core outcome cond hist addr)) = .update core outcome cond hist addr := by
  obtain ⟨hcore, hhist, haddr⟩ := Instr.fits_update_iff.1 hi
  obtain ⟨-, hc, ho, hk, -, hh, ha⟩ := fields_packFields p 0x2 core outcome cond 0 hist addr hcore hhist haddr
  rw [decode_of_op_two (rsvOf_encode hi) (opOf_encode hi), ← fieldCore_eq_coreOf, ← fieldOutcome_eq_outcomeOf,
    ← fieldCond_eq_condOf, ← fieldHist_eq_histOf, ← fieldAddr_eq_addrOf, encode, hc, ho, hk, hh, ha]

/-- Decoding a word of PREDICT gives every operand back. -/
theorem decode_encode_predict {p : PortWidths} {core : CoreId} {hist : Hist} {addr : Addr}
    (hi : (Instr.predict core hist addr).fits p = true) :
    decode p (encode p (.predict core hist addr)) = .predict core hist addr := by
  obtain ⟨hcore, hhist, haddr⟩ := Instr.fits_predict_iff.1 hi
  obtain ⟨-, hc, -, -, -, hh, ha⟩ := fields_packFields p 0x1 core false false 0 hist addr hcore hhist haddr
  rw [decode_of_op_one (rsvOf_encode hi) (opOf_encode hi), ← fieldCore_eq_coreOf, ← fieldHist_eq_histOf, ← fieldAddr_eq_addrOf,
    encode, hc, hh, ha]

/-- A reserved row needs its own guard to be read back: an `OP` of 8 or more, an `RSV` that is not 0. -/
theorem decode_encode {p : PortWidths} {i : Instr} (hi : i.wf p = true) : decode p (encode p i) = i := by
  have hfits := Instr.fits_of_wf hi
  have hrow := Instr.inRow_of_wf hi
  have hop := opOf_encode hfits
  have hrsv := rsvOf_encode hfits
  have hcore := coreOf_encode hfits
  cases i with
  | init core => exact (decode_of_op_zero hrsv hop).trans (congrArg Instr.init hcore)
  | predict core hist addr => exact decode_encode_predict hfits
  | update core outcome cond hist addr => exact decode_encode_update hfits
  | full core => exact (decode_of_op_three hrsv hop).trans (congrArg Instr.full hcore)
  | timestamp core => exact (decode_of_op_four hrsv hop).trans (congrArg Instr.timestamp hcore)
  | recover core => exact (decode_of_op_five hrsv hop).trans (congrArg Instr.recover hcore)
  | specUpdate core => exact (decode_of_op_six hrsv hop).trans (congrArg Instr.specUpdate hcore)
  | retire core => exact (decode_of_op_seven hrsv hop).trans (congrArg Instr.retire hcore)
  | reservedOp op core =>
    have h8 : 8 ≤ op.toNat := of_decide_eq_true hrow
    rw [decode_of_eight_le_op hrsv (hop ▸ h8), fieldOp_encode hfits, hcore]
    rfl
  | reservedRsv rsv op core =>
    have hne : rsv ≠ 0 := of_decide_eq_true hrow
    have hne' : rsvOf p (encode p (.reservedRsv rsv op core)) ≠ 0 := by
      rw [Ne, ← fieldRsv_eq_zero_iff, fieldRsv_encode hfits]
      exact hne
    rw [decode_of_rsv_ne hne', fieldRsv_encode hfits, fieldOp_encode hfits, hcore]
    rfl

/-- A word with no history and no address has `CMD_W` bits where its core fits. -/
theorem packFields_core_lt {p : PortWidths} (op : BitVec 4) (rsv : BitVec 2) {core : CoreId} (h : core < 2 ^ p.cidW) :
    packFields p op core false false rsv 0 0 < 2 ^ p.cmdW :=
  packFields_lt p op core false false rsv 0 0 h (Nat.two_pow_pos _) (Nat.two_pow_pos _)

/-- No bit of an encoding stands above `CMD_W` (R45). -/
theorem encode_lt {p : PortWidths} {i : Instr} (hi : i.fits p = true) : encode p i < 2 ^ p.cmdW := by
  have hcore := headerOf_core_lt hi
  cases i with
  | init core => exact packFields_core_lt _ _ hcore
  | predict core hist addr =>
    obtain ⟨-, hhist, haddr⟩ := Instr.fits_predict_iff.1 hi
    exact packFields_lt p _ _ _ _ _ _ _ hcore hhist haddr
  | update core outcome cond hist addr =>
    obtain ⟨-, hhist, haddr⟩ := Instr.fits_update_iff.1 hi
    exact packFields_lt p _ _ _ _ _ _ _ hcore hhist haddr
  | full core => exact packFields_core_lt _ _ hcore
  | timestamp core => exact packFields_core_lt _ _ hcore
  | recover core => exact packFields_core_lt _ _ hcore
  | specUpdate core => exact packFields_core_lt _ _ hcore
  | retire core => exact packFields_core_lt _ _ hcore
  | reservedOp op core => exact packFields_core_lt _ _ hcore
  | reservedRsv rsv op core => exact packFields_core_lt _ _ hcore

end Sys2Proof

section
open Sys2Proof Sys2Proof.Machine Sys2Proof.Spec

/-- Settles O3: the decoder reads each packed field back, row by row of the opcode table. -/
theorem decodeEncodeRoundTrip : Obligations.DecodeEncodeRoundTrip :=
  fun _ _ hi => ⟨decode_encode hi, encode_lt (Instr.fits_of_wf hi)⟩

/-- Settles O54: the decoder's cases, the two illegal rows and then one per `OP`. -/
theorem decodeFollowsTheLayoutAtEveryWidth : Obligations.DecodeFollowsTheLayoutAtEveryWidth := by
  intro p w
  refine ⟨fun illegal => ?_, fun hrsv => ?_⟩
  · rw [← fieldOp_toNat_eq_opOf, ← fieldRsv_toNat_eq_rsvOf, BitVec.ofNat_toNat, BitVec.ofNat_toNat, BitVec.setWidth_eq,
      BitVec.setWidth_eq]
    exact decode_of_illegal illegal
  · exact ⟨decode_of_op_zero hrsv, decode_of_op_one hrsv, decode_of_op_two hrsv, decode_of_op_three hrsv,
      decode_of_op_four hrsv, decode_of_op_five hrsv, decode_of_op_six hrsv, decode_of_op_seven hrsv⟩

end

namespace Sys2Proof.Machine

/-! What a command that passes `precheck` leaves alone, and that every step keeps the invariant (10_state.md R15, R21, R23,
R28; 41_training.md R76). -/

/-- A command that passes `precheck` writes no fault register, halts nothing and takes no event of the host (10_state.md
R21). -/
theorem exec_next_frame {i : Instr} {s t : State} (hi : i.inRow = true) (hp : precheck (headerOf i) s = none)
    (h : exec i s = .next t) :
    t.halted = s.halted ∧ t.faultCause = s.faultCause ∧ t.faultOp = s.faultOp ∧ t.faultCore = s.faultCore ∧ t.host = s.host := by
  obtain ⟨c, hc, -⟩ | ⟨-, effect⟩ := exec_next_cases hi h
  · cases hp.symm.trans hc
  · obtain ⟨core, -, rfl⟩ | ⟨core, hist, addr, e, -, -, rfl⟩ | ⟨core, outcome, hist, addr, e, -, -, rfl⟩ | ⟨-, -, -, rfl⟩ := effect <;>
      exact ⟨rfl, rfl, rfl, rfl, rfl⟩

/-- Only INIT writes `INIT_DONE` (10_state.md R21). -/
theorem exec_next_initDone {i : Instr} {s t : State} (hi : i.inRow = true) (h : exec i s = .next t) :
    t.initDone = s.initDone ∨ t.initDone = true ∧ ∃ core, i = .init core := by
  obtain ⟨c, -, rfl⟩ | ⟨-, effect⟩ := exec_next_cases hi h
  · exact Or.inl rfl
  · obtain ⟨core, rfl, rfl⟩ | ⟨core, hist, addr, e, -, -, rfl⟩ | ⟨core, outcome, hist, addr, e, -, -, rfl⟩ | ⟨-, -, -, rfl⟩ := effect
    · exact Or.inr ⟨rfl, core, rfl⟩
    · exact Or.inl rfl
    · exact Or.inl rfl
    · exact Or.inl rfl

/-- The codes of the four faults are 1 to 4 (60_exceptions.md R87). -/
theorem FaultCode.code_mem (c : FaultCode) : 1 ≤ c.code.toNat ∧ c.code.toNat ≤ 4 := by
  cases c <;> decide

theorem FaultCode.code_ne_zero (c : FaultCode) : c.code ≠ 0 := by
  cases c <;> decide

/-- A row that a command on a core that exists selects is a row of the SRAM (20_memory.md R37). -/
theorem commandRow_lt {cfg : Config} {core : CoreId} (hcore : core < cfg.numCores) (addr : Addr) :
    commandRow cfg core addr < cfg.numCores * 2 ^ cfg.H := rowOf_lt hcore (index_lt _ _)

section Inv
variable {s : State} (hs : s.Inv)
include hs

theorem State.Inv.takeEvent (rest : List HostEvent) : (takeEvent rest s).Inv :=
  ⟨hs.config, hs.tables, hs.entries, hs.cause, hs.quiet, hs.core, hs.legal⟩

theorem State.Inv.respond (taken full : Bool) : (respond taken full s).Inv :=
  ⟨hs.config, hs.tables, hs.entries, hs.cause, hs.quiet, hs.core, hs.legal⟩

theorem State.Inv.hardReset : (hardReset s).Inv where
  config := hs.config
  tables := rfl
  entries := nofun
  cause := iff_of_true rfl rfl
  quiet := fun _ => ⟨rfl, rfl⟩
  core := Nat.two_pow_pos _
  legal := Nat.zero_le _

theorem State.Inv.zeroTables : (zeroTables s).Inv where
  config := hs.config
  tables := rfl
  entries := by
    rintro _ ⟨⟩
    exact tablesOk_nil s.cfg
  cause := hs.cause
  quiet := hs.quiet
  core := hs.core
  legal := hs.legal

theorem State.Inv.raiseFault (c : FaultCode) {h : Header} (hcore : h.core < 2 ^ s.cfg.cidW) : (raiseFault c h s).Inv where
  config := hs.config
  tables := hs.tables
  entries := hs.entries
  cause := iff_of_false nofun c.code_ne_zero
  quiet := nofun
  core := hcore
  legal := c.code_mem.2

theorem State.Inv.sramWrite {r : Nat} {e : Entry} (hr : r < s.cfg.numCores * 2 ^ s.cfg.H) (he : e.fits s.cfg.H = true) :
    (sramWrite s r e).Inv where
  config := hs.config
  tables := by rw [sramWrite_tbl, Option.isSome_map, sramWrite_initDone, hs.tables]
  entries := by
    intro m' hm'
    rw [sramWrite_tbl, Option.map_eq_some_iff] at hm'
    obtain ⟨m, hm, rfl⟩ := hm'
    exact tablesOk_write (hs.entries m hm) hr he
  cause := hs.cause
  quiet := hs.quiet
  core := hs.core
  legal := hs.legal

/-- Every Entry an access gives has `H` weights, and its fields are in range (R15). -/
theorem State.Inv.sramRead_fits {r : Nat} {e : Entry} (he : sramRead s r = some e) : e.fits s.cfg.H = true := by
  obtain ⟨m, hm, rfl⟩ := Option.map_eq_some_iff.1 he
  exact read_fits (hs.entries m hm) r

/-- An instruction whose operands fit keeps the invariant: UPDATE writes a row that exists, because `precheck` has passed, an
Entry that fits, because training keeps the range. -/
theorem State.Inv.exec {i : Instr} {t : State} (hi : i.wf s.cfg.toPortWidths = true) (h : exec i s = .next t) : t.Inv := by
  obtain ⟨c, -, rfl⟩ | ⟨hp, effect⟩ := exec_next_cases (Instr.inRow_of_wf hi) h
  · exact hs.raiseFault c (headerOf_core_lt (Instr.fits_of_wf hi))
  · obtain ⟨core, -, rfl⟩ | ⟨core, hist, addr, e, -, -, rfl⟩ | ⟨core, outcome, hist, addr, e, rfl, he, rfl⟩ | ⟨-, -, -, rfl⟩ := effect
    · exact hs.zeroTables.respond _ _
    · exact hs.respond _ _
    · have hcore : core < s.cfg.numCores := (ready_of_pass rfl hp).2
      exact (hs.sramWrite (commandRow_lt hcore addr) (train_fits (hs.sramRead_fits he))).respond _ _
    · exact hs.respond _ _

/-- Every step keeps the invariant, whatever the host does. -/
theorem State.Inv.step {t : State} (h : step s = .next t) : t.Inv := by
  obtain ⟨-, ⟨-, -, rfl⟩ | ⟨w, rest, -, -, rfl⟩ | ⟨w, rest, -, -, accepted⟩ | ⟨rest, -, rfl⟩⟩ := step_next_cases h
  · exact hs.takeEvent []
  · exact hs.takeEvent rest
  · exact (hs.takeEvent rest).exec (decode_wf _ w) accepted
  · exact (hs.takeEvent rest).hardReset

end Inv

theorem State.reset_inv : State.reset.Inv where
  config := by decide
  tables := rfl
  entries := nofun
  cause := iff_of_true rfl rfl
  quiet := fun _ => ⟨rfl, rfl⟩
  core := Nat.two_pow_pos _
  legal := Nat.zero_le _

end Sys2Proof.Machine

section
open Sys2Proof Sys2Proof.Machine

/-- Settles O46, by the invariant kept by each update a step is made of. -/
theorem everyStepKeepsTheInvariant : Obligations.EveryStepKeepsTheInvariant := fun _ _ hs h => hs.step h

/-- Settles O45. -/
theorem resetMeetsTheInvariant : Obligations.ResetMeetsTheInvariant := State.reset_inv

end

namespace Sys2Proof.Machine

/-! Each command that passes `precheck`, with its whole next state (40_lookup.md R66; 41_training.md R75; 42_lifecycle.md R79 to
R84). -/

/-- An UPDATE of a conditional branch writes the trained Entry to the selected row (41_training.md R75). -/
def trainedTables (s : State) (m : Memory) (core : CoreId) (outcome : Bool) (hist : Hist) (addr : Addr) : Memory :=
  Memory.write (zeroEntry s.cfg.H) m (commandRow s.cfg core addr)
    (train s.cfg.histW s.cfg.theta (Memory.read (zeroEntry s.cfg.H) m (commandRow s.cfg core addr)) hist outcome)

theorem exec_init_of_not_initDone {s : State} (hinit : s.initDone = false) (core : CoreId) :
    exec (.init core) s = .next { s with tbl := some [], initDone := true, rsp := some 0x00 } := by
  rw [exec_of_pass (i := .init core) rfl (by rw [precheck_init, hinit]; rfl)]
  rfl

theorem precheck_init_of_initDone {s : State} (hinit : s.initDone = true) (core : CoreId) :
    precheck (headerOf (.init core)) s = some .reinit := by
  rw [precheck_init, if_pos hinit]

theorem commandRow_eq (cfg : Config) (core : CoreId) (addr : Addr) :
    commandRow cfg core addr = core * 2 ^ cfg.H + addr / 4 % 2 ^ cfg.H := by
  rw [commandRow, rowOf, index_eq]

/-- PREDICT's response word (30_encoding.md R53). -/
theorem rspWord_direction (v : Int) : rspWord (direction v) false 0 = if 0 ≤ v then 0x01 else 0x00 := by
  by_cases h : 0 ≤ v
  · rw [direction_eq_true_iff.2 h, if_pos h]
    rfl
  · rw [direction_eq_false_iff.2 (not_le.1 h), if_neg h]
    rfl

section Ready
variable {s : State} {core : CoreId} (hinit : s.initDone = true) (hcore : core < s.cfg.numCores)
include hinit hcore

theorem exec_predict_of_ready {hist : Hist} {addr : Addr} {e : Entry}
    (he : sramRead s (commandRow s.cfg core addr) = some e) :
    exec (.predict core hist addr) s = .next { s with rsp := some (if 0 ≤ score s.cfg.histW e hist then 0x01 else 0x00) } := by
  rw [exec_of_ready (i := .predict core hist addr) rfl hinit hcore, ← rspWord_direction]
  simp only [effectOf, he]
  rfl

theorem exec_update_of_ready {outcome : Bool} {hist : Hist} {addr : Addr} {m : Memory} (hm : s.tbl = some m) :
    exec (.update core outcome true hist addr) s =
      .next { s with tbl := some (trainedTables s m core outcome hist addr), rsp := some 0x00 } := by
  rw [exec_of_ready (i := .update core outcome true hist addr) rfl hinit hcore]
  simp only [effectOf, if_true, sramRead_some hm, sramWrite, hm]
  rfl

theorem exec_nonBranch_of_ready {outcome : Bool} {hist : Hist} {addr : Addr} :
    exec (.update core outcome false hist addr) s = .next { s with rsp := some 0x00 } :=
  exec_of_ready (i := .update core outcome false hist addr) rfl hinit hcore

end Ready

section TrainedTables
variable {s : State} {m : Memory} {core : CoreId} {outcome : Bool} {hist : Hist} {addr : Addr}

/-- The selected row holds the trained Entry. -/
theorem read_trainedTables_self (hw : Memory.wf (zeroEntry s.cfg.H) m = true) :
    Memory.read (zeroEntry s.cfg.H) (trainedTables s m core outcome hist addr) (commandRow s.cfg core addr) =
      train s.cfg.histW s.cfg.theta (Memory.read (zeroEntry s.cfg.H) m (commandRow s.cfg core addr)) hist outcome :=
  Memory.read_write_self _ hw

/-- Every other row holds what it held. -/
theorem read_trainedTables_ne {r : Nat} (hr : r ≠ commandRow s.cfg core addr) :
    Memory.read (zeroEntry s.cfg.H) (trainedTables s m core outcome hist addr) r = Memory.read (zeroEntry s.cfg.H) m r :=
  Memory.read_write_ne _ hr

end TrainedTables

/-- A write to the SRAM is seen at no other row (20_memory.md R34). -/
theorem sramRead_sramWrite_ne {s : State} {r r' : Nat} (e : Entry) (hr : r' ≠ r) : sramRead (sramWrite s r e) r' = sramRead s r' := by
  cases hm : s.tbl with
  | none => rw [sramRead, sramRead, sramWrite_tbl, hm]; rfl
  | some m =>
    rw [sramRead_some hm, sramRead, sramWrite_tbl, hm]
    exact congrArg some (Memory.read_write_ne e hr)

/-- An UPDATE that leaves the Entry as it is leaves the tables as they are. -/
theorem trainedTables_of_closed {s : State} {m : Memory} {core : CoreId} {outcome : Bool} {hist : Hist} {addr : Addr}
    (hw : Memory.wf (zeroEntry s.cfg.H) m = true)
    (hgate : gate s.cfg.theta (score s.cfg.histW (Memory.read (zeroEntry s.cfg.H) m (commandRow s.cfg core addr)) hist) outcome =
      false) : trainedTables s m core outcome hist addr = m := by
  rw [trainedTables, train_of_closed hgate, Memory.write_read_self _ hw]

end Sys2Proof.Machine

section
open Sys2Proof Sys2Proof.Machine Sys2Proof.Spec

/-- Settles O25. -/
theorem predictAnswersTheDirection : Obligations.PredictAnswersTheDirection := by
  intro core hist addr s e hinit hcore he
  rw [← commandRow_eq] at he
  exact exec_predict_of_ready hinit hcore he

/-- Settles O26: the write reads back at the selected row and at no other. -/
theorem updateTrainsTheSelectedEntry : Obligations.UpdateTrainsTheSelectedEntry := by
  intro core outcome hist addr s m hinit hm hw hcore
  refine ⟨_, _, exec_update_of_ready hinit hcore hm, rfl, ?_, fun r hr => ?_⟩
  · exact congrArg some (read_trainedTables_self hw)
  · rw [sramRead_some hm]
    exact congrArg some (read_trainedTables_ne hr)

/-- Settles O28: PREDICT selects by the slot alone, so it reads the row the UPDATE has just written. -/
theorem predictSeesTheUpdateBeforeIt : Obligations.PredictSeesTheUpdateBeforeIt := by
  intro core outcome hist hist' addr addr' s m hinit hm hw hcore hidx
  have hrow : commandRow s.cfg core addr' = commandRow s.cfg core addr := congrArg (rowOf s.cfg.H core) hidx
  obtain ⟨t, m', ht, rfl, hread, -⟩ := updateTrainsTheSelectedEntry core outcome hist addr s m hinit hm hw hcore
  have hpredict := exec_predict_of_ready (s := { s with tbl := some m', rsp := some 0x00 }) (hist := hist') hinit hcore
    ((congrArg _ hrow).trans hread)
  exact ⟨_, _, ht, hpredict, rfl⟩

/-- Settles O34: of the next states of an instruction, only INIT's and UPDATE's have other tables, and UPDATE's have the same where
the gate is closed. -/
theorem onlyInitAndTrainingWriteTables : Obligations.OnlyInitAndTrainingWriteTables := by
  intro i s t hi h hne hs
  obtain ⟨c, -, rfl⟩ | ⟨hp, effect⟩ := exec_next_cases (Instr.inRow_of_wf hi) h
  · exact absurd rfl hne
  · obtain ⟨core, rfl, rfl⟩ | ⟨core, hist, addr, e, -, -, rfl⟩ | ⟨core, outcome, hist, addr, e, rfl, he, rfl⟩ | ⟨-, -, -, rfl⟩ := effect
    · refine Or.inl ⟨core, rfl, Bool.eq_false_of_not_eq_true fun hinit => ?_⟩
      cases hp.symm.trans (precheck_init_of_initDone hinit core)
    · exact absurd rfl hne
    · obtain ⟨m, hm, rfl⟩ := Option.map_eq_some_iff.1 he
      refine Or.inr ⟨core, outcome, hist, addr, _, rfl, (ready_of_pass rfl hp).1, he, ?_, fun r hr => sramRead_sramWrite_ne _ hr⟩
      by_contra hclosed
      refine hne ?_
      rw [respond_tbl, sramWrite_tbl, hm]
      exact congrArg some (trainedTables_of_closed (tablesOk_iff.1 (hs.entries m hm)).1 (Bool.eq_false_of_not_eq_true hclosed))
    · exact absurd rfl hne

/-- Settles O35: a fault writes the fault registers and nothing of the tables; a command that passes `precheck` writes none of
them. -/
theorem statusRegistersChangeOnlyByInitAndFaults : Obligations.StatusRegistersChangeOnlyByInitAndFaults := by
  intro i s t hi hrun h
  have hrow := Instr.inRow_of_wf hi
  refine ⟨fun ht => ?_, fun ht => ?_, fun hne => (exec_next_initDone hrow h).resolve_left hne⟩
  · cases hp : precheck (headerOf i) s with
    | some c =>
      cases (exec_of_fault hrow hp).symm.trans h
      cases ht
    | none =>
      obtain ⟨-, hcause, hop, hcore, -⟩ := exec_next_frame hrow hp h
      exact ⟨hcause, hop, hcore⟩
  · cases hp : precheck (headerOf i) s with
    | some c =>
      cases (exec_of_fault hrow hp).symm.trans h
      exact ⟨rfl, rfl, rfl, rfl, c.code_mem⟩
    | none =>
      obtain ⟨hhalted, -⟩ := exec_next_frame hrow hp h
      exact absurd ((hhalted.trans hrun).symm.trans ht) Bool.false_ne_true

/-- Settles O23. -/
theorem initZeroesEveryTable : Obligations.InitZeroesEveryTable :=
  fun core s hinit => ⟨_, [], exec_init_of_not_initDone hinit core, rfl, fun _ _ _ _ => sramRead_zeroTables s _⟩

/-- Settles O24: `precheck` of an INIT on an initialised block reports REINIT. -/
theorem secondInitFaults : Obligations.SecondInitFaults :=
  fun core _ hinit => exec_eq_faultEntry (i := .init core) rfl (precheck_init_of_initDone hinit core)

/-- Settles O27. -/
theorem updateOfNonBranchChangesNothing : Obligations.UpdateOfNonBranchChangesNothing :=
  fun _ _ _ _ _ hinit hcore => exec_nonBranch_of_ready hinit hcore

/-- Settles O29: past `precheck`, each of the five commands answers 0. -/
theorem capacityQueryAndHooksAnswerZero : Obligations.CapacityQueryAndHooksAnswerZero :=
  fun core _ hinit hcore =>
    ⟨exec_of_ready (i := .full core) rfl hinit hcore, exec_of_ready (i := .timestamp core) rfl hinit hcore,
      exec_of_ready (i := .recover core) rfl hinit hcore, exec_of_ready (i := .specUpdate core) rfl hinit hcore,
      exec_of_ready (i := .retire core) rfl hinit hcore⟩

/-- Settles O30. -/
theorem reservedWordsRaiseIllegalCommand : Obligations.ReservedWordsRaiseIllegalCommand :=
  fun rsv op core s => ⟨congrArg Host.Outcome.next (raiseFault_eq_faultEntry .illegalCmd ⟨op, 0, core⟩ s),
    congrArg Host.Outcome.next (raiseFault_eq_faultEntry .illegalCmd ⟨op, rsv, core⟩ s)⟩

end

namespace Sys2Proof.Machine

open Sys2Proof.Spec

/-! An accepted word, from its fields to what the step does (60_exceptions.md R91; 70_reset_and_hazards.md R105). -/

/-- An offered word is accepted with the port's last response gone and the host's list as it was. -/
theorem stepOn_eq_exec {s : State} (hc : cfgOk s.cfg = true) (hh : s.halted = false) (w : CmdWord) :
    stepOn s w = exec (decode s.cfg.toPortWidths w) (takeEvent s.host s) :=
  step_of_cmd (s := { s with host := .cmd w :: s.host }) hc hh rfl

@[simp] theorem headerOf_decode_op (p : PortWidths) (w : CmdWord) : (headerOf (decode p w)).op.toNat = opOf w := by
  rw [decode_header, fieldOp_toNat_eq_opOf]

@[simp] theorem headerOf_decode_core (p : PortWidths) (w : CmdWord) : (headerOf (decode p w)).core = coreOf p w := by
  rw [decode_header, fieldCore_eq_coreOf]

/-- An accepted word that `precheck` stops takes the fault entry with its own `OP` and `CORE` (R92). -/
theorem stepOn_of_fault {s : State} {w : CmdWord} {c : FaultCode} (hc : cfgOk s.cfg = true) (hh : s.halted = false)
    (hp : precheck (headerOf (decode s.cfg.toPortWidths w)) s = some c) :
    stepOn s w = .next (faultEntry s c.code.toNat (opOf w) (coreOf s.cfg.toPortWidths w)) := by
  have hexec := exec_eq_faultEntry (s := takeEvent s.host s) (decode_inRow _ w) hp
  rw [headerOf_decode_op, headerOf_decode_core] at hexec
  rw [stepOn_eq_exec hc hh, hexec]
  rfl

/-- An illegal word reports ILLEGAL_CMD whatever the state (R91). -/
theorem precheck_decode_of_illegal {p : PortWidths} {w : CmdWord} (h : rsvOf p w ≠ 0 ∨ 8 ≤ opOf w) (s : State) :
    precheck (headerOf (decode p w)) s = some .illegalCmd := by
  rw [decode_header]
  rcases h with hrsv | hop
  · exact precheck_of_rsv s (mt fieldRsv_eq_zero_iff.1 hrsv)
  · exact precheck_of_op s (hop.trans_eq (fieldOp_toNat_eq_opOf w).symm)

/-- A legal word with an `OP` of 1 to 7 is a command that carries a core (30_encoding.md R48). -/
theorem carriesCore_decode {p : PortWidths} {w : CmdWord} (hrsv : rsvOf p w = 0) (h1 : 1 ≤ opOf w) (h7 : opOf w ≤ 7) :
    carriesCore (decode p w) = true := by
  have hop : opOf w = 1 ∨ opOf w = 2 ∨ opOf w = 3 ∨ opOf w = 4 ∨ opOf w = 5 ∨ opOf w = 6 ∨ opOf w = 7 := by omega
  rcases hop with h | h | h | h | h | h | h
  · rw [decode_of_op_one hrsv h, carriesCore]
  · rw [decode_of_op_two hrsv h, carriesCore]
  · rw [decode_of_op_three hrsv h, carriesCore]
  · rw [decode_of_op_four hrsv h, carriesCore]
  · rw [decode_of_op_five hrsv h, carriesCore]
  · rw [decode_of_op_six hrsv h, carriesCore]
  · rw [decode_of_op_seven hrsv h, carriesCore]

theorem precheck_eq_none {i : Instr} {s : State} (hi : carriesCore i = true) (hinit : s.initDone = true)
    (hcore : (headerOf i).core < s.cfg.numCores) : precheck (headerOf i) s = none := by
  rw [precheck_of_carriesCore hi, if_neg (by simp [hinit]), if_neg (not_le.2 hcore)]

/-- A command that passes `precheck` completes: it raises no fault and answers 0 or 1 (30_encoding.md R54). -/
theorem exec_completes {i : Instr} {s : State} (hi : i.inRow = true) (htbl : s.tbl.isSome = s.initDone)
    (hp : precheck (headerOf i) s = none) :
    ∃ t v, exec i s = .next t ∧ t.halted = s.halted ∧ t.faultCause = s.faultCause ∧ t.host = s.host ∧ t.rsp = some v ∧
      (v = 0x00 ∨ v = 0x01) := by
  obtain ⟨t, v, ht, hv, hhost⟩ := exec_answers hi htbl
  obtain ⟨hhalted, hcause, -, -, -⟩ := exec_next_frame hi hp ht
  refine ⟨t, v, ht, hhalted, hcause, hhost, hv, ?_⟩
  obtain ⟨c, hc, -⟩ | ⟨-, ⟨core, hist, addr, e, -, -, hrsp⟩ | ⟨-, hrsp⟩⟩ := exec_next_rsp hi ht
  · cases hp.symm.trans hc
  · cases hv.symm.trans hrsp
    rw [rspWord_direction]
    exact (ite_eq_or_eq _ _ _).symm
  · cases hv.symm.trans hrsp
    exact Or.inl rfl

/-- A word that keeps the host's duties passes `precheck` on an initialised block (R105). -/
theorem precheck_decode_of_duty {s : State} {w : CmdWord} (hrsv : rsvOf s.cfg.toPortWidths w = 0) (h1 : 1 ≤ opOf w)
    (h7 : opOf w ≤ 7) (hinit : s.initDone = true) (hcore : coreOf s.cfg.toPortWidths w < s.cfg.numCores) :
    precheck (headerOf (decode s.cfg.toPortWidths w)) s = none :=
  precheck_eq_none (carriesCore_decode hrsv h1 h7) hinit (by rwa [headerOf_decode_core])

/-- A dutiful host gets every command of its list done without a fault, by induction on the list. -/
theorem completes_of_dutiful {events : List HostEvent} {s : State} (hs : s.Inv) (hh : s.halted = false)
    (hinit : s.initDone = true) (hhost : s.host = events) (hd : dutiful s.cfg events) :
    CompletesWithoutFault events.length s := by
  induction events generalizing s with
  | nil => exact completes_zero_iff.2 ⟨hhost, hh⟩
  | cons ev rest ih =>
    obtain ⟨⟨w, rfl, hrsv, h1, h7, hcore⟩, hrest⟩ := List.forall_mem_cons.1 hd
    obtain ⟨t, -, ht, hhalted, -, hthost, -⟩ := exec_completes (s := takeEvent rest s) (decode_inRow s.cfg.toPortWidths w) hs.tables
      (precheck_decode_of_duty hrsv h1 h7 hinit hcore)
    have hstep : step s = .next t := (step_of_cmd hs.config hh hhost).trans ht
    have htinit : t.initDone = true := (exec_next_initDone (decode_inRow _ w) ht).elim (·.trans hinit) And.left
    refine completes_succ_iff.2 ⟨hh, t, hstep, ih (hs.step hstep) (hhalted.trans hh) htinit hthost ?_⟩
    rw [step_next_cfg hstep]
    exact hrest

/-! A halted block (60_exceptions.md R93). -/

/-- While no reset comes, a halted block turns every offer away. -/
theorem run_of_halted {k : Nat} {s t : State} (hh : s.halted = true) (hr : noReset s.host)
    (h : Sys2Proof.core.run k s = .next t) :
    t.tbl = s.tbl ∧ t.initDone = s.initDone ∧ t.halted = true ∧ t.faultCause = s.faultCause ∧ t.faultOp = s.faultOp ∧
      t.faultCore = s.faultCore := by
  induction k generalizing s with
  | zero =>
    cases h
    exact ⟨rfl, rfl, hh, rfl, rfl, rfl⟩
  | succ k ih =>
    obtain ⟨s', hstep, hrun⟩ := run_succ_next h
    obtain ⟨-, ⟨-, hidle, -⟩ | ⟨w, rest, he, -, rfl⟩ | ⟨w, rest, -, hrunning, -⟩ | ⟨rest, he, -⟩⟩ := step_next_cases hstep
    · cases hh.symm.trans hidle
    · rw [he] at hr
      exact ih (s := takeEvent rest s) hh (List.forall_mem_cons.1 hr).2 hrun
    · cases hh.symm.trans hrunning
    · rcases he with he | ⟨w, he⟩
      · obtain ⟨w, hw⟩ := hr .rst (he ▸ List.mem_cons_self)
        cases hw
      · obtain ⟨w', hw'⟩ := hr (.cmdThenRst w) (he ▸ List.mem_cons_self)
        cases hw'

/-- A run that is halted at some point has not completed without a fault, whatever comes after. -/
theorem not_completes_of_halted {n k : Nat} {before s : State} (hh : s.halted = true)
    (h : Sys2Proof.core.run n before = .next s) : ¬ CompletesWithoutFault (n + k) before :=
  fun ⟨_, hquiet⟩ => Bool.false_ne_true ((hquiet n s (Nat.le_add_right n k) h).symm.trans hh)

/-! The status ports (10_state.md R22). -/

/-- Concatenation as arithmetic: the left part stands above the right one. -/
theorem toNat_append_eq_add {m n : Nat} (x : BitVec m) (y : BitVec n) : (x ++ y).toNat = x.toNat * 2 ^ n + y.toNat := by
  rw [BitVec.toNat_append, ← Nat.shiftLeft_add_eq_or_of_lt y.isLt, Nat.shiftLeft_eq]

theorem statusO_toNat (s : State) :
    (statusO s).toNat = s.faultOp.toNat * 2 ^ 8 + s.faultCause.toNat * 2 ^ 2 + s.halted.toNat * 2 + s.initDone.toNat := by
  simp only [statusO, toNat_append_eq_add, BitVec.toNat_ofBool, BitVec.toNat_ofNat]
  omega

theorem faultCoreO_toNat {s : State} (hs : s.Inv) : (faultCoreO s).toNat = s.faultCore := by
  rw [faultCoreO, BitVec.toNat_ofNat, Nat.mod_eq_of_lt hs.core]

end Sys2Proof.Machine

section
open Sys2Proof Sys2Proof.Machine Sys2Proof.Spec

/-- Settles O33, by `precheck` of the decoded word, clause by clause. -/
theorem precheckReportsTheFirstFault : Obligations.PrecheckReportsTheFirstFault := by
  intro s w hc hh htbl
  refine ⟨fun illegal => ?_, fun hrsv hop hinit => ?_, fun hrsv hop hinit => ?_, fun hrsv h1 h7 => ⟨fun hinit => ?_,
    fun hinit hcore => ?_, fun hinit hcore => ?_⟩⟩
  · exact stepOn_of_fault hc hh (precheck_decode_of_illegal illegal s)
  · refine stepOn_of_fault hc hh (c := .reinit) ?_
    rw [decode_of_op_zero hrsv hop, precheck_init_of_initDone hinit]
  · rw [stepOn_eq_exec hc hh, decode_of_op_zero hrsv hop]
    exact ⟨_, exec_init_of_not_initDone hinit _, hh, rfl, rfl⟩
  · exact stepOn_of_fault hc hh (precheck_eq_notInit (carriesCore_decode hrsv h1 h7) hinit)
  · refine stepOn_of_fault hc hh (precheck_eq_coreRange (carriesCore_decode hrsv h1 h7) hinit ?_)
    rwa [headerOf_decode_core]
  · obtain ⟨t, v, ht, hhalted, hcause, -, hv, h01⟩ := exec_completes (s := takeEvent s.host s) (decode_inRow _ w) htbl
      (precheck_decode_of_duty hrsv h1 h7 hinit hcore)
    exact ⟨t, v, (stepOn_eq_exec hc hh w).trans ht, hhalted.trans hh, hcause, hv, h01⟩

/-- Settles O56: INIT first where the block is not initialised, then by induction on the host's list. -/
theorem dutifulHostMeetsNoFault : Obligations.DutifulHostMeetsNoFault := by
  refine fun s hs hh => ⟨fun hinit hd => completes_of_dutiful hs hh hinit rfl hd, fun w rest hinit hhost hop hrsv hd => ?_⟩
  have hstep : step s = .next { s with tbl := some [], initDone := true, rsp := some 0x00, host := rest } := by
    rw [step_of_cmd hs.config hh hhost, decode_of_op_zero hrsv hop]
    exact exec_init_of_not_initDone (s := takeEvent rest s) hinit _
  rw [hhost]
  exact completes_succ_iff.2 ⟨hh, _, hstep, completes_of_dutiful (hs.step hstep) hh rfl rfl hd⟩

/-- Settles O41, by the host's next event. -/
theorem haltedBlockAcceptsNothing : Obligations.HaltedBlockAcceptsNothing := by
  refine fun s hc hh => ⟨?_, fun w rest he => step_of_offer_halted hc hh he, step_of_halted hc hh, fun t hstep ht => ?_⟩
  · rw [reqReady, hh]
    rfl
  · obtain ⟨-, ⟨-, hidle, -⟩ | ⟨w, rest, -, -, rfl⟩ | ⟨w, rest, -, hrunning, -⟩ | ⟨rest, he, -⟩⟩ := step_next_cases hstep
    · cases hh.symm.trans hidle
    · cases hh.symm.trans ht
    · cases hh.symm.trans hrunning
    · exact ⟨rest, he⟩

/-- Settles O42. -/
theorem faultRefutesCompletion : Obligations.FaultRefutesCompletion := by
  refine fun s k hh => ⟨fun hr t h => run_of_halted hh hr h, ?_, fun before n h => not_completes_of_halted hh h⟩
  rw [← Nat.zero_add k]
  exact not_completes_of_halted hh rfl

/-- Settles O47, by the host's next event. -/
theorem everyAcceptedCommandIsAnswered : Obligations.EveryAcceptedCommandIsAnswered := by
  intro s hs
  have accepts : ∀ w rest, s.halted = false → s.host = .cmd w :: rest →
      ∃ t v, step s = .next t ∧ t.rsp = some v ∧ t.host = rest := by
    intro w rest hh he
    rw [step_of_cmd hs.config hh he]
    exact exec_answers (decode_inRow _ w) hs.tables
  refine ⟨fun hgo => ?_, accepts, fun t hstep hrsp => ?_⟩
  · cases he : s.host with
    | nil => exact ⟨_, step_of_idle hs.config (hgo.resolve_right (not_not_intro he)) he⟩
    | cons ev rest =>
      cases ev with
      | cmd w =>
        cases hh : s.halted with
        | true => exact ⟨_, step_of_offer_halted hs.config hh he⟩
        | false =>
          obtain ⟨t, -, ht, -⟩ := accepts w rest hh he
          exact ⟨t, ht⟩
      | rst => exact ⟨_, step_of_rst hs.config he⟩
      | cmdThenRst w => exact ⟨_, step_of_cmdThenRst hs.config he⟩
  · obtain ⟨-, ⟨-, -, rfl⟩ | ⟨w, rest, -, -, rfl⟩ | ⟨w, rest, he, hh, -⟩ | ⟨rest, -, rfl⟩⟩ := step_next_cases hstep
    · exact absurd rfl hrsp
    · exact absurd rfl hrsp
    · exact ⟨hh, w, rest, he⟩
    · exact absurd rfl hrsp

/-- Settles O48: a command that raises no fault has passed `precheck`, which before INIT only INIT does. -/
theorem beforeInitOnlyInitCompletes : Obligations.BeforeInitOnlyInitCompletes := by
  intro s t w rest hinit hh he hstep ht
  have hc := (step_next_cases hstep).1
  rw [step_of_cmd hc hh he] at hstep
  have not_ready : ∀ i, carriesCore i = true → precheck (headerOf i) (takeEvent rest s) = some .notInit :=
    fun i hi => precheck_eq_notInit hi hinit
  obtain ⟨c, -, rfl⟩ | ⟨hp, effect⟩ := exec_next_cases (decode_inRow _ w) hstep
  · cases ht
  · obtain ⟨core, hi, rfl⟩ | ⟨core, hist, addr, e, hi, -, -⟩ | ⟨core, outcome, hist, addr, e, hi, -, -⟩ | ⟨hi, -, -, -⟩ := effect
    · exact ⟨rfl, core, hi⟩
    · cases (not_ready _ (hi ▸ rfl)).symm.trans hp
    · cases (not_ready _ (hi ▸ rfl)).symm.trans hp
    · cases (not_ready _ hi).symm.trans hp

/-- Settles O43. -/
theorem hardwareResetRestoresStatus : Obligations.HardwareResetRestoresStatus := by
  rintro s rest hc (he | ⟨w, he⟩)
  · exact step_of_rst hc he
  · exact step_of_cmdThenRst hc he

/-- Settles O38. -/
theorem stepRunsTheDecodedCommand : Obligations.StepRunsTheDecodedCommand := fun _ _ _ hc hh he => step_of_cmd hc hh he

/-- Settles O39: the offered word is the host's next event. -/
theorem offeredTableWordRunsNext : Obligations.OfferedTableWordRunsNext := by
  refine fun s nbits w hc hh => ⟨step_of_cmd (s := s.withFetchWord nbits w) hc hh rfl, fun hp hn => ?_⟩
  rw [decodeTableWord, if_pos (show nbits ≤ instanceConfig.cmdW from hn), hp]
  rfl

/-- Settles O40: an idle step takes nothing from an empty list. -/
theorem idleBlockWaits : Obligations.IdleBlockWaits := by
  intro s hc hh he
  rw [step_of_idle hc hh he, takeEvent, ← he]

/-- Settles O37. -/
theorem statusPortsFollowTheirLayout : Obligations.StatusPortsFollowTheirLayout :=
  fun s => ⟨statusO_toNat s, faultCoreO_toNat⟩

/-- Settles O44, by evaluating the reset state. -/
theorem resetStateIsAsSpecified : Obligations.ResetStateIsAsSpecified :=
  ⟨rfl, rfl, rfl, rfl, rfl, rfl, rfl, rfl⟩

end

namespace Sys2Proof.Machine

open Sys2Proof.Spec

/-! What the datapath reads of its inputs: of the history the signs of the weights alone, and of the address the slot
(40_lookup.md R57, R59, R67). -/

section Signs
variable {histW histW' : Nat} {e : Entry} {hist hist' : Hist}
  (hsign : ∀ i < e.w.length, histSign histW hist i = histSign histW' hist' i)
include hsign

theorem products_congr : products histW e hist = products histW' e hist' :=
  List.map_congr_left fun p hp => congrArg (p.1 * ·) (hsign p.2 (by simpa using List.snd_lt_of_mem_zipIdx hp))

/-- The score depends on the history through the signs of the weights alone (R61). -/
theorem score_congr : score histW e hist = score histW' e hist' := by
  rw [score, score, products_congr hsign]

/-- So does a training step (41_training.md R73). -/
theorem train_congr (theta : Nat) (outcome : Bool) : train histW theta e hist outcome = train histW' theta e hist' outcome := by
  have hw : (e.w.zipIdx.map fun p => saturate (p.1 + histSign histW hist p.2 * target outcome)) =
      e.w.zipIdx.map fun p => saturate (p.1 + histSign histW' hist' p.2 * target outcome) :=
    List.map_congr_left fun p hp => by rw [hsign p.2 (by simpa using List.snd_lt_of_mem_zipIdx hp)]
  rw [train, train, score_congr hsign, hw]

end Signs

/-- The sign of weight `i` is read from one of the top `H` bits (R60). -/
theorem histSign_congr_of_top {H histW : Nat} {hist hist' : Hist} (hH : H ≤ histW)
    (htop : ∀ k, histW - H ≤ k → k < histW → hist.testBit k = hist'.testBit k) {i : Nat} (hi : i < H) :
    histSign histW hist i = histSign histW hist' i := by
  rw [histSign, histSign, htop _ (by omega) (by omega)]

/-- Extra low bits of a wider history stand below every bit a weight reads (R59). -/
theorem histSign_widen {histW k : Nat} {hist low : Hist} (hlow : low < 2 ^ k) {i : Nat} (hi : i < histW) :
    histSign (histW + k) (hist * 2 ^ k + low) i = histSign histW hist i := by
  have hbit : (hist * 2 ^ k + low).testBit (histW + k - 1 - i) = hist.testBit (histW - 1 - i) := by
    rw [Nat.mul_comm, Nat.testBit_two_pow_mul_add _ hlow, if_neg (by omega), show histW + k - 1 - i - k = histW - 1 - i by omega]
  rw [histSign, histSign, hbit]

/-- The constraints of 00_scope.md R8. -/
theorem cfgOk_iff {c : Config} :
    cfgOk c = true ↔ 1 ≤ c.H ∧ c.H ≤ c.histW ∧ c.H + 2 ≤ c.addrW ∧ 1 ≤ c.numCores ∧ c.numCores ≤ 2 ^ c.cidW ∧
      8 + Nat.clog 2 (c.H + 1) ≤ c.accW := by
  simp [cfgOk, accWMin_eq, and_assoc]

/-- Two commands with one header and one effect on a state do the same to it. -/
theorem exec_congr {i j : Instr} {s : State} (hi : i.inRow = true) (hj : j.inRow = true) (hheader : headerOf i = headerOf j)
    (heffect : effectOf i s = effectOf j s) : exec i s = exec j s := by
  rw [exec_eq_runCommand hi, exec_eq_runCommand hj, hheader, runCommand, runCommand]
  split
  · rfl
  · exact heffect

/-! The effect of training on the score (41_training.md R78). -/

/-- Below `THETA` an outcome of taken opens the gate: the score is a misprediction or has a low margin (R71). -/
theorem gate_true_of_lt {theta : Nat} {v : Int} (h : v < (theta : Int)) : gate theta v true = true := by
  refine gate_eq_true_iff.2 ?_
  by_cases hv : 0 ≤ v
  · exact Or.inr (by omega)
  · exact Or.inl (by rw [direction_eq_false_iff.2 (not_le.1 hv)]; decide)

theorem gate_true_of_le {theta : Nat} {v : Int} (h : (theta : Int) ≤ v) : gate theta v true = false := by
  rw [← Bool.not_eq_true, gate_eq_true_iff, not_or, not_not]
  exact ⟨direction_eq_true_iff.2 (by omega), by omega⟩

/-- A training step inside the range clamps only at the bound it moves towards, and raises the field's share of the score by 1
otherwise (R69, R78). -/
theorem saturate_step_mul {v : Int} (h1 : -128 ≤ v) (h2 : v ≤ 127) (up : Bool) :
    saturate (v + if up then 1 else -1) * (if up then 1 else -1) =
      v * (if up then 1 else -1) + if v ≠ (if up then 127 else -128) then 1 else 0 := by
  cases up with
  | true =>
    by_cases hv : v = 127
    · subst hv
      rfl
    · simp [hv, saturate_of_mem (v := v + 1) (by omega) (by omega)]
  | false =>
    by_cases hv : v = -128
    · subst hv
      rfl
    · simp [hv, saturate_of_mem (v := v + -1) (by omega) (by omega), add_comm]

/-- The number of fields that can still move, as the bias's share and the weights'. -/
theorem unsaturated_eq_sum (histW : Nat) (e : Entry) (hist : Hist) :
    (unsaturated histW e hist : Int) = (if e.bias < 127 then 1 else 0) +
      ∑ i ∈ Finset.range e.w.length, if e.w.getD i 0 ≠ (if hist.testBit (histW - 1 - i) then 127 else -128) then 1 else 0 := by
  rw [unsaturated, Finset.sum_boole]
  push_cast
  rfl

/-- A step towards taken raises the score by the number of fields that can still move (R78). -/
theorem score_train_true {H histW theta : Nat} {e : Entry} {hist : Hist} (he : e.fits H = true)
    (hlow : score histW e hist < (theta : Int)) :
    score histW (train histW theta e hist true) hist = score histW e hist + (unsaturated histW e hist : Int) := by
  have hopen := gate_true_of_lt hlow
  obtain ⟨-, ⟨hb1, hb2⟩, hw⟩ := Entry.fits_iff.1 he
  have hbias : saturate (e.bias + 1) = e.bias + if e.bias < 127 then 1 else 0 := by
    by_cases hb : e.bias < 127
    · rw [if_pos hb, saturate_of_mem (by omega) (by omega)]
    · rw [if_neg hb, saturate_of_gt (by omega)]
      omega
  have hweight : ∀ i ∈ Finset.range e.w.length, (train histW theta e hist true).w.getD i 0 * histSign histW hist i =
      e.w.getD i 0 * histSign histW hist i +
        if e.w.getD i 0 ≠ (if hist.testBit (histW - 1 - i) then 127 else -128) then 1 else 0 := by
    intro i hi
    have hi := Finset.mem_range.1 hi
    obtain ⟨h1, h2⟩ := hw _ (List.getD_eq_getElem _ 0 hi ▸ List.getElem_mem hi)
    rw [train_getD_of_open hopen hi, target_true, mul_one]
    exact saturate_step_mul h1 h2 _
  rw [score_eq_sum, score_eq_sum, train_bias_of_open hopen, target_true, hbias, train_w_length, Finset.sum_congr rfl hweight,
    Finset.sum_add_distrib, unsaturated_eq_sum]
  ring

/-- The Entry that `k` unclamped steps towards taken make of the zero Entry under one history. -/
def steppedEntry (histW H : Nat) (hist : Hist) (k : Nat) : Entry :=
  { bias := k, w := (List.range H).map fun i => (k : Int) * histSign histW hist i }

theorem steppedEntry_zero (histW H : Nat) (hist : Hist) : steppedEntry histW H hist 0 = zeroEntry H := by
  simp [steppedEntry, zeroEntry]

theorem score_steppedEntry (histW H : Nat) (hist : Hist) (k : Nat) :
    score histW (steppedEntry histW H hist k) hist = k * (H + 1) := by
  have hterm : ∀ i ∈ Finset.range H, (steppedEntry histW H hist k).w.getD i 0 * histSign histW hist i = k := by
    intro i hi
    have hi := Finset.mem_range.1 hi
    rcases histSign_eq_or histW hist i with hx | hx <;> simp [steppedEntry, hi, hx]
  rw [score_eq_sum, show (steppedEntry histW H hist k).w.length = H by simp [steppedEntry], Finset.sum_congr rfl hterm,
    Finset.sum_const, Finset.card_range, nsmul_eq_mul, steppedEntry]
  ring

/-- One more step, while the score is below `THETA` and no field is at its bound. -/
theorem train_steppedEntry {histW H theta k : Nat} {hist : Hist} (hlow : k * (H + 1) < theta) (hk : k < 127) :
    train histW theta (steppedEntry histW H hist k) hist true = steppedEntry histW H hist (k + 1) := by
  have hopen : gate theta (score histW (steppedEntry histW H hist k) hist) true = true :=
    gate_true_of_lt (by rw [score_steppedEntry]; exact_mod_cast hlow)
  have hsat : ∀ x : Int, x = 1 ∨ x = -1 → saturate (k * x + x) = ((k + 1 : Nat) : Int) * x := by
    rintro x (rfl | rfl) <;> rw [saturate_of_mem (by omega) (by omega)] <;> push_cast <;> ring
  rw [train, if_pos hopen]
  refine congrArg₂ Entry.mk ?_ ?_
  · simpa [steppedEntry] using hsat 1 (Or.inl rfl)
  · refine List.ext_getElem (by simp [steppedEntry]) fun i h1 h2 => ?_
    simpa [steppedEntry] using hsat _ (histSign_eq_or histW hist i)

/-! The order of the weights (40_lookup.md R60). -/

/-- The score as a sum over weight positions. -/
theorem score_eq_sum_fin {H histW : Nat} {e : Entry} (hlen : e.w.length = H) (hist : Hist) :
    score histW e hist = e.bias + ∑ i : Fin H, e.w.getD i 0 * histSign histW hist i := by
  rw [score_eq_sum, hlen, Finset.sum_range fun i => e.w.getD i 0 * histSign histW hist i]

/-- An Entry that stands in another order, read against the history in that order, has the same score. -/
theorem score_permuted {H histW : Nat} {order : Equiv.Perm (Fin H)} {e e' : Entry} {hist hist' : Hist}
    (hlen : e.w.length = H) (hlen' : e'.w.length = H) (hbias : e'.bias = e.bias)
    (hw : ∀ i : Fin H, e'.w.getD i 0 = e.w.getD (order i) 0)
    (hsign : ∀ i : Fin H, histSign histW hist' i = histSign histW hist (order i)) :
    score histW e' hist' = score histW e hist := by
  rw [score_eq_sum_fin hlen, score_eq_sum_fin hlen', hbias,
    ← Equiv.sum_comp order fun i => e.w.getD i 0 * histSign histW hist i]
  exact congrArg _ (Finset.sum_congr rfl fun i _ => by rw [hw, hsign])

/-! The row of an Entry (20_memory.md R31). -/

section Row
variable {H : Nat} {e : Entry} (he : e.fits H = true)
include he

/-- The fields of an Entry that fits fill its row. -/
theorem entryToRow_toNat : (entryToRow H e).toNat = packRow (e.bias :: e.w) := by
  have hlt := packRow_lt (e.bias :: e.w)
  rw [List.length_cons, (Entry.fits_iff.1 he).1] at hlt
  rw [entryToRow, BitVec.toNat_ofNat, Nat.mod_eq_of_lt hlt]

theorem rowToEntry_entryToRow : rowToEntry H (entryToRow H e) = e := by
  obtain ⟨hlen, hbias, hw⟩ := Entry.fits_iff.1 he
  have hunpack := unpackRow_packRow (l := e.bias :: e.w) (List.forall_mem_cons.2 ⟨hbias, hw⟩)
  rw [List.length_cons, hlen, unpackRow, List.cons.injEq] at hunpack
  rw [rowToEntry, entryToRow_toNat he, hunpack.1, hunpack.2]

/-- Field `i` of the row, the bias first. -/
theorem extractLsb'_entryToRow {i : Nat} (hi : i ≤ H) :
    (entryToRow H e).extractLsb' (8 * i) 8 = enc8 ((e.bias :: e.w).getD i 0) := by
  rw [← packRow_field (by rw [List.length_cons, (Entry.fits_iff.1 he).1]; omega), ← entryToRow_toNat he, BitVec.extractLsb',
    Nat.shiftRight_eq_div_pow]

end Row

end Sys2Proof.Machine

section
open Sys2Proof Sys2Proof.Machine Sys2Proof.Spec

/-- Settles O5. -/
theorem lookupReadsOnlyIndexAndTopHistory : Obligations.LookupReadsOnlyIndexAndTopHistory := by
  intro s core outcome cond h h' a a' hs ha hh
  obtain ⟨-, hH, -⟩ := cfgOk_iff.1 hs.config
  have hrow : commandRow s.cfg core a = commandRow s.cfg core a' := congrArg (rowOf s.cfg.H core) (index_eq_index_iff.2 ha)
  have hsign : ∀ e, sramRead s (commandRow s.cfg core a') = some e →
      ∀ i < e.w.length, histSign s.cfg.histW h i = histSign s.cfg.histW h' i := by
    intro e he i hi
    rw [(Entry.fits_iff.1 (hs.sramRead_fits he)).1] at hi
    exact histSign_congr_of_top hH hh hi
  constructor
  · refine exec_congr rfl rfl rfl ?_
    simp only [effectOf, hrow]
    cases he : sramRead s (commandRow s.cfg core a') with
    | none => rfl
    | some e => simp only [score_congr (hsign e he)]
  · refine exec_congr rfl rfl rfl ?_
    simp only [effectOf, hrow]
    cases he : sramRead s (commandRow s.cfg core a') with
    | none => rfl
    | some e => simp only [train_congr (hsign e he)]

/-- Settles O55. -/
theorem widerHistoryKeepsItsTopBits : Obligations.WiderHistoryKeepsItsTopBits := by
  intro histW k theta e hist low outcome he hlow
  have hsign : ∀ i < e.w.length, histSign (histW + k) (hist * 2 ^ k + low) i = histSign histW hist i :=
    fun i hi => histSign_widen hlow (hi.trans_le he)
  exact ⟨score_congr hsign, train_congr hsign theta outcome⟩

/-- Settles O6: 1.93 H + 14 is (193 H + 1400) / 100, whose floor is the natural quotient. -/
theorem thetaIsTheExactFloor : Obligations.ThetaIsTheExactFloor := by
  refine ⟨fun H => ?_, by decide, rfl⟩
  have h : (1.93 : ℚ) * H + 14 = ((193 * H + 1400 : ℕ) : ℚ) / (100 : ℕ) := by
    push_cast
    ring
  rw [h, Rat.floor_natCast_div_natCast]
  rfl

/-- Settles O16: off the two bounds the step stays in the range of the clamp. -/
theorem trainingStepClampsInTwoCasesOnly : Obligations.TrainingStepClampsInTwoCasesOnly := by
  intro f d h1 h2 hd
  exact ⟨fun hf hd => saturate_of_gt (by omega), fun hf hd => saturate_of_lt (by omega),
    fun hup hdown => saturate_of_mem (by omega) (by omega)⟩

/-- Settles O19: the scores are one sum in two orders, so the gates agree, and an open gate moves each weight by its own sign. -/
theorem pairingOfWeightsIsUnobservable : Obligations.PairingOfWeightsIsUnobservable := by
  intro H histW theta order e e' hist hist' outcome hlen hlen' hbias hw hbit
  have hsign : ∀ i : Fin H, histSign histW hist' i = histSign histW hist (order i) := fun i => by
    rw [histSign, histSign, hbit]
  have hscore := score_permuted hlen hlen' hbias hw hsign
  refine ⟨hscore, ?_⟩
  cases hgate : gate theta (score histW e hist) outcome with
  | false =>
    rw [train_of_closed hgate, train_of_closed (hscore.symm ▸ hgate)]
    exact ⟨hbias, hw⟩
  | true =>
    have hgate' : gate theta (score histW e' hist') outcome = true := hscore.symm ▸ hgate
    refine ⟨by rw [train_bias_of_open hgate, train_bias_of_open hgate', hbias], fun i => ?_⟩
    rw [train_getD_of_open hgate' (hlen'.symm ▸ i.isLt), train_getD_of_open hgate (hlen.symm ▸ (order i).isLt), hw, hsign]

/-- Settles O21: the three steps from the zero Entry stay below the bounds, and the fourth finds the gate closed. -/
theorem trainingRaisesScoreUntilGateCloses : Obligations.TrainingRaisesScoreUntilGateCloses := by
  refine ⟨fun H histW theta e hist he hlow => score_train_true he hlow,
    fun histW theta e hist hhigh => train_of_closed (gate_true_of_le hhigh), fun histW hist => ?_⟩
  have hstep : ∀ k < 3, train histW 37 (steppedEntry histW 12 hist k) hist true = steppedEntry histW 12 hist (k + 1) :=
    fun k hk => train_steppedEntry (by omega) (by omega)
  have hscore := score_steppedEntry histW 12 hist
  simp only [← steppedEntry_zero histW 12 hist, hstep 0 (by decide), hstep 1 (by decide), hstep 2 (by decide)]
  exact ⟨hscore 0, hscore 1, hscore 2, hscore 3, train_of_closed (gate_true_of_le (by rw [hscore]; decide))⟩

/-- Settles O22. -/
theorem rowLayoutRoundTrip : Obligations.RowLayoutRoundTrip :=
  fun _ _ he => ⟨rowToEntry_entryToRow he, extractLsb'_entryToRow he (Nat.zero_le _),
    fun i hi => extractLsb'_entryToRow (i := i + 1) he hi⟩

end

namespace Sys2Proof.Machine

open Sys2Proof.Spec

/-! Two cores share no row: writes to different rows commute, and a command sees of the tables its own core's row alone
(10_state.md R17; 20_memory.md R40). -/

/-- Writes to two rows give the same memory in either order. -/
theorem Memory.write_comm {z : Entry} {m : Memory} {r r' : Nat} (e e' : Entry) (hr : r ≠ r') (hm : Memory.wf z m = true) :
    Memory.write z (Memory.write z m r e) r' e' = Memory.write z (Memory.write z m r' e') r e := by
  refine Memory.ext_of_read (Memory.wf_write _ _ (Memory.wf_write _ _ hm)) (Memory.wf_write _ _ (Memory.wf_write _ _ hm)) fun k => ?_
  by_cases hk : k = r
  · subst hk
    rw [Memory.read_write_ne _ hr, Memory.read_write_self _ hm, Memory.read_write_self _ (Memory.wf_write _ _ hm)]
  · by_cases hk' : k = r'
    · subst hk'
      rw [Memory.read_write_self _ (Memory.wf_write _ _ hm), Memory.read_write_ne _ hk, Memory.read_write_self _ hm]
    · rw [Memory.read_write_ne _ hk', Memory.read_write_ne _ hk, Memory.read_write_ne _ hk, Memory.read_write_ne _ hk']

/-- A read after a write depends on what was there before only at the row read. -/
theorem Memory.read_write_congr {z : Entry} {m m' : Memory} {r r' : Nat} (e : Entry) (hm : Memory.wf z m = true)
    (hm' : Memory.wf z m' = true) (h : Memory.read z m r' = Memory.read z m' r') :
    Memory.read z (Memory.write z m r e) r' = Memory.read z (Memory.write z m' r e) r' := by
  by_cases hr : r' = r
  · rw [hr, Memory.read_write_self e hm, Memory.read_write_self e hm']
  · rw [Memory.read_write_ne e hr, Memory.read_write_ne e hr, h]

/-- A fresh core stays fresh while its rows and the parameters stay (40_lookup.md R65). -/
theorem freshCore_of_rows {s t : State} {c : Nat} (hs : freshCore s c) (hinit : t.initDone = true) (hcfg : t.cfg = s.cfg)
    (hrows : ∀ j, j < 2 ^ s.cfg.H → sramRead t (rowOf s.cfg.H c j) = sramRead s (rowOf s.cfg.H c j)) : freshCore t c := by
  refine ⟨hinit, fun j hj => ?_⟩
  rw [hcfg] at hj ⊢
  rw [hrows j hj, hs.2 j hj]

/-- After INIT every core is fresh (42_lifecycle.md R79). -/
theorem freshCore_zeroTables (s : State) (taken full : Bool) (c : Nat) : freshCore (respond taken full (zeroTables s)) c :=
  ⟨rfl, fun _ _ => sramRead_zeroTables s _⟩

/-- Of all instructions only an UPDATE of a conditional branch on the core itself ends its freshness. -/
theorem freshCore_exec {i : Instr} {s t : State} {c : Nat} (hi : i.inRow = true) (hs : freshCore s c) (h : exec i s = .next t)
    (hother : ∀ core outcome hist addr, core = c → i ≠ .update core outcome true hist addr) : freshCore t c := by
  obtain ⟨k, -, rfl⟩ | ⟨-, effect⟩ := exec_next_cases hi h
  · exact freshCore_of_rows hs hs.1 rfl fun _ _ => rfl
  · obtain ⟨core, -, rfl⟩ | ⟨core, hist, addr, e, -, -, rfl⟩ | ⟨core, outcome, hist, addr, e, rfl, -, rfl⟩ | ⟨-, -, -, rfl⟩ := effect
    · exact freshCore_zeroTables s _ _ c
    · exact freshCore_of_rows hs hs.1 rfl fun _ _ => rfl
    · have hne : c ≠ core := fun hc => hother core outcome hist addr hc.symm rfl
      exact freshCore_of_rows hs hs.1 rfl fun j hj => sramRead_sramWrite_ne _ (rowOf_ne hj (index_lt _ _) hne)
    · exact freshCore_of_rows hs hs.1 rfl fun _ _ => rfl

/-! Which steps are refused, and when two offered words do the same (00_scope.md R8; 30_encoding.md R50). -/

theorem step_ne_refused {s : State} (hc : cfgOk s.cfg = true) (r : Refusal) : step s ≠ .refused r := by
  cases he : s.host with
  | nil =>
    cases hh : s.halted with
    | true => rw [step_of_halted hc hh he]; nofun
    | false => rw [step_of_idle hc hh he]; nofun
  | cons ev rest =>
    cases ev with
    | cmd w =>
      cases hh : s.halted with
      | true => rw [step_of_offer_halted hc hh he]; nofun
      | false => rw [step_of_cmd hc hh he]; exact exec_ne_refused _ _ r
    | rst => rw [step_of_rst hc he]; nofun
    | cmdThenRst w => rw [step_of_cmdThenRst hc he]; nofun

theorem step_eq_badConfiguration_iff {s : State} : step s = .refused .badConfiguration ↔ cfgOk s.cfg = false := by
  refine ⟨fun h => ?_, step_of_badConfig⟩
  by_contra hc
  exact step_ne_refused (Bool.eq_true_of_not_eq_false hc) _ h

theorem stepOn_of_badConfig {s : State} (hc : cfgOk s.cfg = false) (w : CmdWord) : stepOn s w = .refused .badConfiguration :=
  step_of_badConfig (s := { s with host := .cmd w :: s.host }) hc

theorem stepOn_of_halted {s : State} (hc : cfgOk s.cfg = true) (hh : s.halted = true) (w : CmdWord) :
    stepOn s w = .next (takeEvent s.host s) :=
  step_of_offer_halted (s := { s with host := .cmd w :: s.host }) hc hh rfl

/-- A step reads an offered word through the instruction it decodes to alone. -/
theorem stepOn_congr {s : State} {w w' : CmdWord}
    (h : exec (decode s.cfg.toPortWidths w) (takeEvent s.host s) = exec (decode s.cfg.toPortWidths w') (takeEvent s.host s)) :
    stepOn s w = stepOn s w' := by
  cases hc : cfgOk s.cfg with
  | false => rw [stepOn_of_badConfig hc, stepOn_of_badConfig hc]
  | true =>
    cases hh : s.halted with
    | true => rw [stepOn_of_halted hc hh, stepOn_of_halted hc hh]
    | false => rw [stepOn_eq_exec hc hh, stepOn_eq_exec hc hh, h]

theorem stepOn_congr_of_decode_eq {s : State} {w w' : CmdWord}
    (h : decode s.cfg.toPortWidths w = decode s.cfg.toPortWidths w') : stepOn s w = stepOn s w' :=
  stepOn_congr (by rw [h])

/-- A step on an offered word that answers a next state turns the word away or runs it. -/
theorem stepOn_next_cases {s t : State} {w : CmdWord} (h : stepOn s w = .next t) :
    s.halted = true ∧ t = takeEvent s.host s ∨
      s.halted = false ∧ exec (decode s.cfg.toPortWidths w) (takeEvent s.host s) = .next t := by
  cases hc : cfgOk s.cfg with
  | false => cases (stepOn_of_badConfig hc w).symm.trans h
  | true =>
    cases hh : s.halted with
    | true =>
      cases (stepOn_of_halted hc hh w).symm.trans h
      exact Or.inl ⟨rfl, rfl⟩
    | false => exact Or.inr ⟨rfl, (stepOn_eq_exec hc hh w).symm.trans h⟩

/-- INIT uses its `CORE` only where it faults, and there only to record it (30_encoding.md R50; 60_exceptions.md R92). -/
theorem exec_init_core_irrelevant {s t t' : State} {core core' : CoreId} (h : exec (.init core) s = .next t)
    (h' : exec (.init core') s = .next t') : t' = { t with faultCore := t'.faultCore } := by
  cases hinit : s.initDone with
  | false =>
    cases (exec_init_of_not_initDone hinit core).symm.trans h
    cases (exec_init_of_not_initDone hinit core').symm.trans h'
    rfl
  | true =>
    cases (exec_of_fault (i := .init core) rfl (precheck_init_of_initDone hinit core)).symm.trans h
    cases (exec_of_fault (i := .init core') rfl (precheck_init_of_initDone hinit core')).symm.trans h'
    rfl

/-- An UPDATE of no conditional branch uses of its operands the `CORE` alone (R50). -/
theorem exec_nonBranch_congr (core : CoreId) (outcome outcome' : Bool) (hist hist' : Hist) (addr addr' : Addr) (s : State) :
    exec (.update core outcome false hist addr) s = exec (.update core outcome' false hist' addr') s := rfl

end Sys2Proof.Machine

namespace Sys2Proof

open Sys2Proof.Spec

section Agree
variable {p : PortWidths} {w w' : CmdWord} (hop : opOf w = opOf w') (hrsv : rsvOf p w = rsvOf p w') (hcore : coreOf p w = coreOf p w')
include hop

theorem fieldOp_congr : fieldOp w = fieldOp w' :=
  BitVec.eq_of_toNat_eq (by rw [fieldOp_toNat_eq_opOf, fieldOp_toNat_eq_opOf, hop])

include hrsv hcore

/-- Two words that agree on the header and are illegal for their `RSV` are one instruction. -/
theorem decode_congr_of_rsv_ne (hne : rsvOf p w ≠ 0) : decode p w = decode p w' := by
  have hfield : fieldRsv p w = fieldRsv p w' :=
    BitVec.eq_of_toNat_eq (by rw [fieldRsv_toNat_eq_rsvOf, fieldRsv_toNat_eq_rsvOf, hrsv])
  rw [decode_of_rsv_ne hne, decode_of_rsv_ne (hrsv ▸ hne), fieldOp_congr hop, hfield, hcore]

/-- With an `OP` of 3 or more the header is the whole instruction (30_encoding.md R50). -/
theorem decode_congr_of_three_le_op (h3 : 3 ≤ opOf w) : decode p w = decode p w' := by
  by_cases hzero : rsvOf p w = 0
  · have hzero' : rsvOf p w' = 0 := hrsv ▸ hzero
    have hcases : opOf w = 3 ∨ opOf w = 4 ∨ opOf w = 5 ∨ opOf w = 6 ∨ opOf w = 7 ∨ 8 ≤ opOf w := by omega
    rcases hcases with h | h | h | h | h | h
    · rw [decode_of_op_three hzero h, decode_of_op_three hzero' (hop ▸ h), hcore]
    · rw [decode_of_op_four hzero h, decode_of_op_four hzero' (hop ▸ h), hcore]
    · rw [decode_of_op_five hzero h, decode_of_op_five hzero' (hop ▸ h), hcore]
    · rw [decode_of_op_six hzero h, decode_of_op_six hzero' (hop ▸ h), hcore]
    · rw [decode_of_op_seven hzero h, decode_of_op_seven hzero' (hop ▸ h), hcore]
    · rw [decode_of_eight_le_op hzero h, decode_of_eight_le_op hzero' (hop ▸ h), fieldOp_congr hop, hcore]
  · exact decode_congr_of_rsv_ne hop hrsv hcore hzero

end Agree

end Sys2Proof

namespace Sys2Proof.Machine

open Sys2Proof.Spec

section Offered
variable {s : State} {w w' : CmdWord}

/-- Of two words with one header only legal ones can differ in what they do. -/
theorem stepOn_congr_of_header (hop : opOf w = opOf w') (hrsv : rsvOf s.cfg.toPortWidths w = rsvOf s.cfg.toPortWidths w')
    (hcore : coreOf s.cfg.toPortWidths w = coreOf s.cfg.toPortWidths w')
    (hlegal : rsvOf s.cfg.toPortWidths w = 0 → rsvOf s.cfg.toPortWidths w' = 0 → stepOn s w = stepOn s w') :
    stepOn s w = stepOn s w' := by
  by_cases hzero : rsvOf s.cfg.toPortWidths w = 0
  · exact hlegal hzero (hrsv ▸ hzero)
  · exact stepOn_congr_of_decode_eq (decode_congr_of_rsv_ne hop hrsv hcore hzero)

section Init
variable {core core' : CoreId} (hinit : decode s.cfg.toPortWidths w = .init core)
  (hinit' : decode s.cfg.toPortWidths w' = .init core')
include hinit hinit'

/-- While the block is not initialised, INIT does the same whatever its `CORE` (R50). -/
theorem stepOn_init_congr (hnot : s.initDone = false) : stepOn s w = stepOn s w' := by
  refine stepOn_congr ?_
  rw [hinit, hinit', exec_init_of_not_initDone (s := takeEvent s.host s) hnot, exec_init_of_not_initDone (s := takeEvent s.host s) hnot]

/-- Two INITs leave states that differ in `FAULT_CORE` at most. -/
theorem stepOn_init_core_irrelevant {t t' : State} (h : stepOn s w = .next t) (h' : stepOn s w' = .next t') :
    t' = { t with faultCore := t'.faultCore } := by
  obtain ⟨hh, rfl⟩ | ⟨hh, hexec⟩ := stepOn_next_cases h
  · obtain ⟨-, rfl⟩ | ⟨hh', -⟩ := stepOn_next_cases h'
    · rfl
    · cases hh.symm.trans hh'
  · obtain ⟨hh', -⟩ | ⟨-, hexec'⟩ := stepOn_next_cases h'
    · cases hh.symm.trans hh'
    · exact exec_init_core_irrelevant (hinit ▸ hexec) (hinit' ▸ hexec')

end Init

end Offered

end Sys2Proof.Machine

section
open Sys2Proof Sys2Proof.Machine Sys2Proof.Spec

/-- Settles O7. -/
theorem onlyConfigurationsOfThisBlockRun : Obligations.OnlyConfigurationsOfThisBlockRun := by
  intro s
  rw [step_eq_badConfiguration_iff, ← cfgOk_iff, Bool.not_eq_true]

/-- Settles O4: words that agree on the fields their command uses decode to one instruction, but for INIT's `CORE` and the operands
of an UPDATE with `COND = 0`. -/
theorem ignoredFieldsNeverMatter : Obligations.IgnoredFieldsNeverMatter := by
  intro s w w' hop hrsv
  refine ⟨fun h0 hzero => ?_, fun hcore => ?_⟩
  · have hinit := decode_of_op_zero hzero h0
    have hinit' := decode_of_op_zero (hrsv ▸ hzero) (hop ▸ h0)
    exact ⟨stepOn_init_congr hinit hinit', fun t t' => stepOn_init_core_irrelevant hinit hinit'⟩
  · refine ⟨fun h1 hhist haddr => stepOn_congr_of_header hop hrsv hcore fun hzero hzero' => ?_,
      fun h2 hcond hcond' => stepOn_congr_of_header hop hrsv hcore fun hzero hzero' => ?_,
      fun h2 hout hcond hhist haddr => stepOn_congr_of_header hop hrsv hcore fun hzero hzero' => ?_,
      fun h3 => stepOn_congr_of_decode_eq (decode_congr_of_three_le_op hop hrsv hcore h3),
      fun hne => stepOn_congr_of_decode_eq (decode_congr_of_rsv_ne hop hrsv hcore hne)⟩
    · refine stepOn_congr_of_decode_eq ?_
      rw [decode_of_op_one hzero h1, decode_of_op_one hzero' (hop ▸ h1), hcore, hhist, haddr]
    · refine stepOn_congr ?_
      rw [decode_of_op_two hzero h2, decode_of_op_two hzero' (hop ▸ h2), hcore, hcond, hcond']
      exact exec_nonBranch_congr ..
    · refine stepOn_congr_of_decode_eq ?_
      rw [decode_of_op_two hzero h2, decode_of_op_two hzero' (hop ▸ h2), hcore, hout, hcond, hhist, haddr]

/-- Settles O49: each command is a read-modify-write of a row of its own core, and the two rows differ. -/
theorem commandsOnDifferentCoresCommute : Obligations.CommandsOnDifferentCoresCommute := by
  intro s m i j hinit hm hw hi hj hci hcj hne
  obtain ⟨ki, fi, gi, hki, hexi⟩ := exec_carriesCore hi s.cfg hci
  obtain ⟨kj, fj, gj, hkj, hexj⟩ := exec_carriesCore hj s.cfg hcj
  have hrow := rowOf_ne hki hkj hne
  refine ⟨_, _, _, _, hexi s m hinit rfl hm hw, hexj _ _ hinit rfl rfl (Memory.wf_write _ _ hw), hexj s m hinit rfl hm hw,
    hexi _ _ hinit rfl rfl (Memory.wf_write _ _ hw), ?_, ?_, ?_⟩
  · rw [Memory.read_write_ne _ hrow.symm, Memory.read_write_ne _ hrow, Memory.write_comm _ _ hrow hw]
  · rw [Memory.read_write_ne _ hrow]
  · rw [Memory.read_write_ne _ hrow.symm]

/-- Settles O50: the response and the new Entry come from one row of the core, which both blocks hold alike. -/
theorem coresShareNoState : Obligations.CoresShareNoState := by
  intro s s' m m' i hinit hinit' hcfg hm hm' hw hw' hi hcore hsame
  obtain ⟨k, f, g, hk, hex⟩ := exec_carriesCore hi s.cfg hcore
  have hread : ∀ j, j < 2 ^ s.cfg.H → Memory.read (zeroEntry s.cfg.H) m (rowOf s.cfg.H (headerOf i).core j) =
      Memory.read (zeroEntry s.cfg.H) m' (rowOf s.cfg.H (headerOf i).core j) := by
    intro j hj
    have h := hsame j hj
    rw [sramRead_some hm, sramRead_some hm', ← hcfg] at h
    exact Option.some.inj h
  refine ⟨_, _, hex s m hinit rfl hm hw, hex s' m' hinit' hcfg.symm hm' hw', ?_, fun j hj => ?_, fun c j hc hj => ?_⟩
  · rw [hread k hk]
  · rw [sramRead_some rfl, sramRead_some rfl, hread k hk, ← hcfg]
    exact congrArg some (Memory.read_write_congr _ hw hw' (hread j hj))
  · rw [sramRead_some rfl, sramRead_some hm]
    exact congrArg some (Memory.read_write_ne _ (rowOf_ne hj hk hc))

/-- Settles O51: a fresh core's rows are zero Entries, which score 0. -/
theorem freshCorePredictsTaken : Obligations.FreshCorePredictsTaken := by
  refine ⟨fun core s t c hinit h => ?_, fun i s t c hi hs _ h hother => freshCore_exec (Instr.inRow_of_wf hi) hs h hother,
    fun core hist addr s hs hcore => ?_⟩
  · cases (exec_init_of_not_initDone hinit core).symm.trans h
    exact freshCore_zeroTables s false false c
  · rw [exec_predict_of_ready hs.1 hcore (hs.2 _ (index_lt _ addr)), score_zeroEntry]
    rfl

end

namespace Sys2Proof.Machine

open Sys2Proof.Spec

/-! The assembler: which operands it accepts, and the word by the places of R47 (30_encoding.md R55). -/

theorem oneCore_eq (p : PortWidths) (make : CoreId → Instr) (core : Nat) :
    oneCore p make core = if core < 2 ^ p.cidW then some (make core) else none := by
  rw [oneCore, fitField]
  split <;> rfl

theorem threeFields_eq (p : PortWidths) (make : CoreId → Addr → Hist → Instr) (core addr hist : Nat) :
    threeFields p make core addr hist =
      if core < 2 ^ p.cidW ∧ addr < 2 ^ p.addrW ∧ hist < 2 ^ p.histW then some (make core addr hist) else none := by
  unfold threeFields fitField
  by_cases hc : core < 2 ^ p.cidW
  · by_cases ha : addr < 2 ^ p.addrW
    · by_cases hh : hist < 2 ^ p.histW <;> simp [hc, ha, hh]
    · simp [hc, ha]
  · simp [hc]

/-- A legal word by the places of its fields, the highest first. -/
theorem packFields_rsv_zero_eq (p : PortWidths) (op : BitVec 4) (core : CoreId) (o k : Bool) (hist : Hist) (addr : Addr) :
    packFields p op core o k 0 hist addr =
      addr * 2 ^ (ctrl p + p.histW) + hist * 2 ^ ctrl p + k.toNat * 2 ^ (ctrl p - 3) + o.toNat * 2 ^ (ctrl p - 4) + core * 2 ^ 4 +
        op.toNat := by
  rw [packFields, p.ctlW_eq_ctrl, show (0 : BitVec 2).toNat = 0 from rfl]
  ring

theorem packFields_core_eq (p : PortWidths) (op : BitVec 4) (core : CoreId) :
    packFields p op core false false 0 0 0 = core * 2 ^ 4 + op.toNat := by
  rw [packFields_rsv_zero_eq]
  simp

theorem encode_predict_eq (p : PortWidths) (core : CoreId) (hist : Hist) (addr : Addr) :
    encode p (.predict core hist addr) = addr * 2 ^ (ctrl p + p.histW) + hist * 2 ^ ctrl p + core * 2 ^ 4 + 1 := by
  rw [encode, packFields_rsv_zero_eq]
  simp

theorem encode_update_eq (p : PortWidths) (core : CoreId) (outcome cond : Bool) (hist : Hist) (addr : Addr) :
    encode p (.update core outcome cond hist addr) =
      addr * 2 ^ (ctrl p + p.histW) + hist * 2 ^ ctrl p + cond.toNat * 2 ^ (ctrl p - 3) + outcome.toNat * 2 ^ (ctrl p - 4) +
        core * 2 ^ 4 + 2 :=
  packFields_rsv_zero_eq p 0x2 core outcome cond hist addr

/-- A command with one operand assembles to its code and its core, when the core fits. -/
theorem assemble_oneCore {p : PortWidths} {c : AsmCommand} {make : CoreId → Instr} {op : BitVec 4} {core : Nat}
    (hinstr : c.instr p = oneCore p make core) (hencode : encode p (make core) = packFields p op core false false 0 0 0) :
    AsmCommand.assemble p c = if core < 2 ^ p.cidW then some (core * 2 ^ 4 + op.toNat) else none := by
  rw [AsmCommand.assemble, hinstr, oneCore_eq, apply_ite (Option.map (encode p)), Option.map_some, Option.map_none, hencode,
    packFields_core_eq]

/-- A command with three operands assembles to the word of its instruction, when every operand fits. -/
theorem assemble_threeFields {p : PortWidths} {c : AsmCommand} {make : CoreId → Addr → Hist → Instr} {core addr hist : Nat}
    (hinstr : c.instr p = threeFields p make core addr hist) :
    AsmCommand.assemble p c =
      if core < 2 ^ p.cidW ∧ addr < 2 ^ p.addrW ∧ hist < 2 ^ p.histW then some (encode p (make core addr hist)) else none := by
  rw [AsmCommand.assemble, hinstr, threeFields_eq, apply_ite (Option.map (encode p)), Option.map_some, Option.map_none]

end Sys2Proof.Machine

section
open Sys2Proof Sys2Proof.Machine Sys2Proof.Spec

/-- Settles O52, mnemonic by mnemonic. -/
theorem assemblerAcceptsExactlyFittingValues : Obligations.AssemblerAcceptsExactlyFittingValues := by
  intro p core addr hist taken conditional
  refine ⟨rfl, rfl, ?_, ?_, ?_, assemble_oneCore (op := 0x3) rfl rfl, assemble_oneCore (op := 0x4) rfl rfl,
    assemble_oneCore (op := 0x5) rfl rfl, assemble_oneCore (op := 0x6) rfl rfl, assemble_oneCore (op := 0x7) rfl rfl⟩
  · rw [← encode_predict_eq]
    exact assemble_threeFields (c := .predict core addr hist) (make := fun c a h => .predict c h a) rfl
  · rw [← encode_update_eq]
    exact assemble_threeFields (c := .update core addr hist taken conditional)
      (make := fun c a h => .update c taken conditional h a) rfl
  · exact congrArg some (packFields_core_eq p 0 0)

/-- Settles O1, by evaluating the decoder on the written words. -/
theorem specWordsDecodeToTheirCommands : Obligations.SpecWordsDecodeToTheirCommands := by
  unfold Obligations.SpecWordsDecodeToTheirCommands
  decide

/-- Settles O53, by evaluating the assembler on the written lines. -/
theorem assemblerLinesMatchTheWrittenForm : Obligations.AssemblerLinesMatchTheWrittenForm := by
  unfold Obligations.AssemblerLinesMatchTheWrittenForm
  decide

end
